-- ==== Sys2Proof/Word.lean ====
section
/-! DEFINITION. The words of the SLCAN codec: bytes, nibbles, the eight data bytes of a frame, the CAN frame itself
(spec/10_state.md R22), and the two triggers that start a transaction (spec/60_exceptions.md R224). Plain data only. -/

namespace Sys2Proof

/-- A byte is 8 bits, an unsigned integer 0 to 255 (R9). -/
abbrev Byte := BitVec 8

/-- A nibble is "a 4-bit half-byte, represented as one hexadecimal character in the wire grammar" (R9). -/
abbrev Nibble := BitVec 4

/-- The 32-bit identifier accumulator of R77, and the width of `DEVICE_ID` (R42). -/
abbrev Word32 := BitVec 32

/-- `FRAME.data[0..7]`: "fixed-size byte array, length 8" (R22). -/
structure Data8 where
  d0 : Byte
  d1 : Byte
  d2 : Byte
  d3 : Byte
  d4 : Byte
  d5 : Byte
  d6 : Byte
  d7 : Byte
deriving DecidableEq, Repr

/-- The source's `CanFrame` (R22). The same five fields are the inputs of the encode port (R41), where nothing has
checked them yet, the contents of the register `FRAME`, and the arguments of `FX_TRANSMIT` (R43). -/
structure CanFrame where
  /-- the identifier, 29 bits -/
  id   : BitVec 29
  /-- `true` = extended, `false` = standard -/
  ext  : Bool
  /-- `true` = remote frame, `false` = data frame -/
  rtr  : Bool
  /-- data length code, 4 bits -/
  dlc  : Nibble
  data : Data8
deriving DecidableEq, Repr

/-- What the external scheduler fires (R12, R224). One trigger starts one transaction. -/
inductive Trigger where
  /-- The transport receive callback: one received chunk (`LINE`, `LEN`), and beside it the two values the hardware
  collaborator answers if a handler asks for them during this transaction (R21, R42: "The block does not assume
  `DEVICE_ID` or `STATUS_BYTES` are the same at two different transactions"). -/
  | chunk (line : List Byte) (deviceId : Word32) (statusBytes : List Byte)
  /-- The CAN receive interrupt: one raw frame at the encode port (R41). -/
  | frame (raw : CanFrame)
deriving DecidableEq, Repr

end Sys2Proof
end

