-- ==== Sys2Proof/Config.lean ====
section
/-! DEFINITION. The implementation parameters of spec/00_scope.md R7: the constants this hardware fixes, and the OPEN
ones as the fields of `Config`, which State carries unchanged, so that every statement over all states is a statement
over all configurations. -/

namespace Sys2Proof

/-- `LINE_MAX`, the largest chunk in bytes (R7). -/
def lineMax : Nat := 64

/-- `TERMINATOR`, CR (R7). -/
def cr : Byte := 0x0D#8

/-- `STD_ID_MAX`, at the accumulator's width (R7, R24). -/
def stdIdMax : Word32 := 0x7FF#32

/-- `EXT_ID_MAX`, at the accumulator's width (R7, R24). -/
def extIdMax : Word32 := 0x1FFFFFFF#32

/-- `DLC_MAX` (R7). -/
def dlcMax : Nibble := 8#4

/-- The last of the `N_PRESETS` = 9 bit-rate presets, numbered 0 to 8 (R7, R81). -/
def presetMax : Nibble := 8#4

/-- `STD_ID_NIBBLES` and `EXT_ID_NIBBLES`: identifier characters by kind (R7, R121). -/
def idNibbles (ext : Bool) : Nat := if ext then 8 else 3

/-- The longest encoder output (R108), the bound `OUT_CAP` must reach (R59). -/
def outMax : Nat := 27

/-- `SURFACE_ERRORS` (R7): fixed to false on this hardware. R221 gives no behaviour for true, so no definition of the
model reads it: no error ever puts a byte into a response. -/
def surfaceErrors : Bool := false

/-- The OPEN parameters of R7 that a build fixes. The two capacities are given by what they hold beyond the bound the
spec demands of them (R59), so that a configuration breaking a bound cannot be written down (assumption 5). -/
structure Config where
  /-- `VERSION_BYTES`, the bytes the `V` handler appends (R200). -/
  versionBytes : List Byte
  /-- the greatest length the collaborator's `STATUS_BYTES` are said to have, `max len(STATUS_BYTES)` of R7. -/
  statusMax : Nat
  /-- bytes of `RESP_CAP` beyond `RESP_MAX`. -/
  respSpare : Nat
  /-- bytes of `OUT_CAP` beyond 27. -/
  outSpare : Nat
deriving DecidableEq, Repr

namespace Config

/-- `RESP_MAX = max(8, len(VERSION_BYTES), max len(STATUS_BYTES)) + 1` (R7). -/
def respMax (c : Config) : Nat := max 8 (max c.versionBytes.length c.statusMax) + 1

/-- `RESP_CAP`, at least `RESP_MAX` (R7, R59). -/
def respCap (c : Config) : Nat := c.respMax + c.respSpare

/-- `OUT_CAP`, at least 27 (R7, R59). -/
def outCap (c : Config) : Nat := outMax + c.outSpare

/-- The version string of the build that `State.reset` stands for. The source does not give it (R200, D15), so it is a
free value: nothing can evaluate it (assumption 4). -/
opaque freeVersionBytes : List Byte

/-- The configuration at reset: the free version string, and capacities of the model's choosing (assumptions 4, 5). -/
def ofReset : Config := { versionBytes := freeVersionBytes, statusMax := 0, respSpare := 64, outSpare := 0 }

end Config

end Sys2Proof
end

