-- ==== Sys2Proof/Syntax.lean ====
section
/-! DEFINITION. The instruction set (spec/00_scope.md R2): the 21 single-letter commands of the dispatch port and the
four frame forms of the encode port, one constructor per row of spec/opcode_table.json, in the table's order. -/

namespace Sys2Proof

/-- One instruction is one transaction (R12); its opcode is byte 0 of the line (spec/30_encoding.md).

A command's operand `args` is what stands on the line between the letter and the final CR, `LINE[1..LEN-2]`, any bytes:
what they mean is the handler's business (R72, R145), so a frame line with a bad digit is still this instruction.
An emitted form's operands are the raw frame's fields at the encode port; its two flags are the constructor (R101). -/
inductive Instr where
  /-- `S`, set up the bus with a bit-rate preset (R160). -/
  | setup (args : List Byte)
  /-- `s`, configuration command (R190). -/
  | cfgLowerS (args : List Byte)
  /-- `O`, open the bus (R161). -/
  | openBus (args : List Byte)
  /-- `L`, open the bus in listen-only mode (R162). -/
  | listenBus (args : List Byte)
  /-- `C`, close the bus (R163). -/
  | closeBus (args : List Byte)
  /-- `t`, transmit a standard data frame (R171). -/
  | txStdData (args : List Byte)
  /-- `T`, transmit an extended data frame (R172). -/
  | txExtData (args : List Byte)
  /-- `r`, transmit a standard remote frame request (R173). -/
  | txStdRemote (args : List Byte)
  /-- `R`, transmit an extended remote frame request (R174). -/
  | txExtRemote (args : List Byte)
  /-- `P`, polling mode toggle (R180). -/
  | pollMode (args : List Byte)
  /-- `A`, auto-send mode toggle (R181). -/
  | autoMode (args : List Byte)
  /-- `F`, read status flags (R182). -/
  | readStatus (args : List Byte)
  /-- `X`, configuration toggle (R191). -/
  | cfgX (args : List Byte)
  /-- `W`, configuration toggle (R192). -/
  | cfgW (args : List Byte)
  /-- `M`, configuration toggle (R193). -/
  | cfgUpperM (args : List Byte)
  /-- `m`, configuration toggle (R194). -/
  | cfgLowerM (args : List Byte)
  /-- `U`, configuration toggle (R195). -/
  | cfgU (args : List Byte)
  /-- `V`, return the version string (R200). -/
  | version (args : List Byte)
  /-- `N`, return the device identifier (R201). -/
  | deviceIdent (args : List Byte)
  /-- `Z`, configuration toggle (R196). -/
  | cfgZ (args : List Byte)
  /-- `Q`, configuration toggle (R197). -/
  | cfgQ (args : List Byte)
  /-- `EMIT.t`, standard data frame (R110). -/
  | emitStdData (id : BitVec 29) (dlc : Nibble) (data : Data8)
  /-- `EMIT.T`, extended data frame (R111). -/
  | emitExtData (id : BitVec 29) (dlc : Nibble) (data : Data8)
  /-- `EMIT.r`, standard remote frame (R112). -/
  | emitStdRemote (id : BitVec 29) (dlc : Nibble) (data : Data8)
  /-- `EMIT.R`, extended remote frame (R113). -/
  | emitExtRemote (id : BitVec 29) (dlc : Nibble) (data : Data8)
deriving DecidableEq, Repr

end Sys2Proof
end

