-- ==== Sys2Proof/WellFormed.lean ====
section
/-! DEFINITION. Which instructions have an encoding: a command whose line fits a chunk (spec/20_memory.md R59,
spec/30_encoding.md R70), an emitted form whose frame keeps the invariant of spec/10_state.md R23. -/

namespace Sys2Proof

/-- R23, the invariant of a well-formed frame. Its clause for extended frames, `id <= 0x1FFFFFFF`, "always holds in a
29-bit field". -/
def CanFrame.wf (f : CanFrame) : Bool :=
  decide (f.dlc ≤ dlcMax) && (f.ext || decide (f.id.setWidth 32 ≤ stdIdMax))

/-- The letter, the operand bytes and the final CR fit one chunk of at most `LINE_MAX` bytes (R59, R70). -/
def argsFit (args : List Byte) : Bool := decide (args.length + 2 ≤ lineMax)

/-- An instruction is well formed when it has an encoding: R70 for a line, R23 for an emitted frame. -/
def Instr.wf : Instr → Bool
  | .setup args => argsFit args
  | .cfgLowerS args => argsFit args
  | .openBus args => argsFit args
  | .listenBus args => argsFit args
  | .closeBus args => argsFit args
  | .txStdData args => argsFit args
  | .txExtData args => argsFit args
  | .txStdRemote args => argsFit args
  | .txExtRemote args => argsFit args
  | .pollMode args => argsFit args
  | .autoMode args => argsFit args
  | .readStatus args => argsFit args
  | .cfgX args => argsFit args
  | .cfgW args => argsFit args
  | .cfgUpperM args => argsFit args
  | .cfgLowerM args => argsFit args
  | .cfgU args => argsFit args
  | .version args => argsFit args
  | .deviceIdent args => argsFit args
  | .cfgZ args => argsFit args
  | .cfgQ args => argsFit args
  | .emitStdData id dlc data => CanFrame.wf { id, ext := false, rtr := false, dlc, data }
  | .emitExtData id dlc data => CanFrame.wf { id, ext := true, rtr := false, dlc, data }
  | .emitStdRemote id dlc data => CanFrame.wf { id, ext := false, rtr := true, dlc, data }
  | .emitExtRemote id dlc data => CanFrame.wf { id, ext := true, rtr := true, dlc, data }

end Sys2Proof
end

