-- ==== Sys2Proof/Decode.lean ====
section
/-! DEFINITION. The hexadecimal maps (spec/30_encoding.md R74, R75), the Command Table (spec/10_state.md R33), the
decoder of a chunk (steps 1 and 2 of spec/42_dispatcher.md R141) and of a trigger, and after them the encoder. -/

namespace Sys2Proof

/-! ### Hexadecimal characters -/

/-- `HexVal(b)`, character to nibble (R74). -/
def hexVal (b : Byte) : Option Nibble :=
  if 0x30#8 ≤ b ∧ b ≤ 0x39#8 then some ((b - 0x30#8).setWidth 4)
  else if 0x41#8 ≤ b ∧ b ≤ 0x46#8 then some ((b - 0x41#8 + 10#8).setWidth 4)
  else if 0x61#8 ≤ b ∧ b ≤ 0x66#8 then some ((b - 0x61#8 + 10#8).setWidth 4)
  else none

/-- `HexChar(n)`, nibble to character, upper case only (R75). -/
def hexChar (n : Nibble) : Byte :=
  if n ≤ 9#4 then 0x30#8 + n.setWidth 8 else 0x41#8 + (n.setWidth 8 - 10#8)

/-- Nibble `k` of a 32-bit value, `(v >> (4*k)) & 0xF` (R78, R201). -/
def nibbleAt (v : Word32) (k : Nat) : Nibble := v.extractLsb' (4 * k) 4

/-- `n` characters, most significant nibble first: for `k` from `n - 1` down to 0, `HexChar((v >> (4*k)) & 0xF)`
(R78, R201). -/
def hexDigits : Nat → Word32 → List Byte
  | 0, _ => []
  | n + 1, v => hexChar (nibbleAt v n) :: hexDigits n v

/-- The two characters of a data byte, high nibble first (R80). -/
def byteDigits (b : Byte) : List Byte := [hexChar (b.extractLsb' 4 4), hexChar (b.extractLsb' 0 4)]

/-- `HexVal(hi) * 16 + HexVal(lo)` (R80). -/
def byteOfNibbles (hi lo : Nibble) : Byte := hi.setWidth 8 * 16#8 + lo.setWidth 8

namespace Data8

/-- `data[0..7]` as a list, `data[0]` first (R50). -/
def toList (d : Data8) : List Byte := [d.d0, d.d1, d.d2, d.d3, d.d4, d.d5, d.d6, d.d7]

/-- `d[0..7] <- 0`, then `d[i]` set for the bytes there are (R129). -/
def ofList (l : List Byte) : Data8 :=
  ⟨l.getD 0 0, l.getD 1 0, l.getD 2 0, l.getD 3 0, l.getD 4 0, l.getD 5 0, l.getD 6 0, l.getD 7 0⟩

/-- Eight zero bytes. -/
def zero : Data8 := ⟨0, 0, 0, 0, 0, 0, 0, 0⟩

/-- The first `n` bytes kept, the others zero (R24's loop for a data frame). -/
def keep (n : Nat) (d : Data8) : Data8 := ofList (d.toList.take n)

end Data8

/-! ### The Command Table -/

/-- The 21 entries of the Command Table, in the order of R33: byte 0 and the instruction whose handler it selects. -/
def commandRows : List (Byte × (List Byte → Instr)) :=
  [(0x53#8, .setup), (0x73#8, .cfgLowerS), (0x4F#8, .openBus), (0x4C#8, .listenBus), (0x43#8, .closeBus)] ++
  [(0x74#8, .txStdData), (0x54#8, .txExtData), (0x72#8, .txStdRemote), (0x52#8, .txExtRemote)] ++
  [(0x50#8, .pollMode), (0x41#8, .autoMode), (0x46#8, .readStatus)] ++
  [(0x58#8, .cfgX), (0x57#8, .cfgW), (0x4D#8, .cfgUpperM), (0x6D#8, .cfgLowerM), (0x55#8, .cfgU)] ++
  [(0x56#8, .version), (0x4E#8, .deviceIdent), (0x5A#8, .cfgZ), (0x51#8, .cfgQ)]

/-- Lookup of a row by its byte, all 8 bits (R33 "by exact character match"). -/
def lookupRow (c : Byte) : List (Byte × (List Byte → Instr)) → Option (List Byte → Instr)
  | [] => none
  | (b, mk) :: rows => if c = b then some mk else lookupRow c rows

/-- `CommandTable(LINE[0])` (R141 step 2). -/
def commandTable (c : Byte) : Option (List Byte → Instr) := lookupRow c commandRows

/-! ### The decoder -/

/-- Why a chunk selects no instruction. The first is outside the spec's domain (R59: a longer chunk "is never
presented; the model refuses it"); the other two are the error kinds of steps 1 and 2 (R217, R216). -/
inductive DecodeError where
  | chunkTooLong
  | incompleteLine
  | unknownCommand
deriving DecidableEq, Repr

/-- Steps 1 and 2 of R141 on a chunk: its length, then its last byte, then byte 0, and nothing else of it. -/
def decodeLine (line : List Byte) : Except DecodeError Instr :=
  if lineMax < line.length then .error .chunkTooLong
  else if line.getLast? = some cr then
    match line with
    | [] => .error .incompleteLine
    | c :: rest =>
      match commandTable c with
      | none => .error .unknownCommand
      | some mk => .ok (mk rest.dropLast)
  else .error .incompleteLine

/-- The encode transaction of a raw frame: the form is selected by the frame's flags (R101; the table's "selected by
the frame's flags"). -/
def decodeFramePort (raw : CanFrame) : Instr :=
  match raw.ext, raw.rtr with
  | false, false => .emitStdData raw.id raw.dlc raw.data
  | true, false => .emitExtData raw.id raw.dlc raw.data
  | false, true => .emitStdRemote raw.id raw.dlc raw.data
  | true, true => .emitExtRemote raw.id raw.dlc raw.data

/-- The instruction a trigger starts, or why none (R224). -/
def decodeTrigger : Trigger → Except DecodeError Instr
  | .chunk line _ _ => decodeLine line
  | .frame raw => .ok (decodeFramePort raw)

/-- The `n` low bytes of `w`, the least significant first (the opcode table's numbering of bits). -/
def bytesOfNat : Nat → Nat → List Byte
  | 0, _ => []
  | n + 1, w => BitVec.ofNat 8 w :: bytesOfNat n (w / 256)

/-- The shortest complete line that starts with the table's bits: the `nbits / 8` bytes of `w`, no operand byte, and the
terminator that every row also requires ("byte LEN-1 = 0x0D"; assumption 3). -/
def tableLine (nbits w : Nat) : List Byte := bytesOfNat (nbits / 8) w ++ [cr]

/-- The instruction the decoder reads from the table's word. A row `EMIT.x` has the byte 0 of row `x`, and bytes that
arrive are always a received line, so both words read as `x` (assumption 3). -/
def decodeTableWord (nbits w : Nat) : Option Instr :=
  match decodeLine (tableLine nbits w) with
  | .ok i => some i
  | .error _ => none

/-! ### The encoder -/

/-- A received line: letter, operand bytes, CR (R72). -/
def commandLine (c : Byte) (args : List Byte) : List Byte := c :: (args ++ [cr])

/-- An emitted line of R95: leading character, identifier, DLC, the data field, CR. -/
def emittedLine (c : Byte) (n : Nat) (id : BitVec 29) (dlc : Nibble) (data : List Byte) : List Byte :=
  c :: (hexDigits n (id.setWidth 32) ++ hexChar dlc :: (data.flatMap byteDigits ++ [cr]))

/-- The bytes of an instruction: the line that arrives for a command (R72), the line that leaves for an emitted form
(R95). -/
def encode : Instr → List Byte
  | .setup args => commandLine 0x53#8 args
  | .cfgLowerS args => commandLine 0x73#8 args
  | .openBus args => commandLine 0x4F#8 args
  | .listenBus args => commandLine 0x4C#8 args
  | .closeBus args => commandLine 0x43#8 args
  | .txStdData args => commandLine 0x74#8 args
  | .txExtData args => commandLine 0x54#8 args
  | .txStdRemote args => commandLine 0x72#8 args
  | .txExtRemote args => commandLine 0x52#8 args
  | .pollMode args => commandLine 0x50#8 args
  | .autoMode args => commandLine 0x41#8 args
  | .readStatus args => commandLine 0x46#8 args
  | .cfgX args => commandLine 0x58#8 args
  | .cfgW args => commandLine 0x57#8 args
  | .cfgUpperM args => commandLine 0x4D#8 args
  | .cfgLowerM args => commandLine 0x6D#8 args
  | .cfgU args => commandLine 0x55#8 args
  | .version args => commandLine 0x56#8 args
  | .deviceIdent args => commandLine 0x4E#8 args
  | .cfgZ args => commandLine 0x5A#8 args
  | .cfgQ args => commandLine 0x51#8 args
  | .emitStdData id dlc data => emittedLine 0x74#8 3 id dlc (data.toList.take dlc.toNat)
  | .emitExtData id dlc data => emittedLine 0x54#8 8 id dlc (data.toList.take dlc.toNat)
  | .emitStdRemote id dlc _ => emittedLine 0x72#8 3 id dlc []
  | .emitExtRemote id dlc _ => emittedLine 0x52#8 8 id dlc []

/-- The raw frame that an emitted form stands for at the encode port; none for a command (R41, R101). -/
def Instr.rawFrame : Instr → Option CanFrame
  | .emitStdData id dlc data => some { id, ext := false, rtr := false, dlc, data }
  | .emitExtData id dlc data => some { id, ext := true, rtr := false, dlc, data }
  | .emitStdRemote id dlc data => some { id, ext := false, rtr := true, dlc, data }
  | .emitExtRemote id dlc data => some { id, ext := true, rtr := true, dlc, data }
  | .setup _ => none
  | .cfgLowerS _ => none
  | .openBus _ => none
  | .listenBus _ => none
  | .closeBus _ => none
  | .txStdData _ => none
  | .txExtData _ => none
  | .txStdRemote _ => none
  | .txExtRemote _ => none
  | .pollMode _ => none
  | .autoMode _ => none
  | .readStatus _ => none
  | .cfgX _ => none
  | .cfgW _ => none
  | .cfgUpperM _ => none
  | .cfgLowerM _ => none
  | .cfgU _ => none
  | .version _ => none
  | .deviceIdent _ => none
  | .cfgZ _ => none
  | .cfgQ _ => none

/-- The trigger that starts an instruction: its raw frame at the encode port, or its line at the dispatch port with the
collaborator's answers beside it. -/
def encodeTrigger (i : Instr) (deviceId : Word32) (statusBytes : List Byte) : Trigger :=
  match i.rawFrame with
  | some raw => .frame raw
  | none => .chunk (encode i) deviceId statusBytes

end Sys2Proof
end

