-- ==== Sys2Proof/Machine/State.lean ====
section
/-! DEFINITION. The state of the codec as plain data: every register and buffer of spec/10_state.md R22 to R36, the
ports a transaction reads, the schedule of the environment, the reasons to stop, and the state after reset (R47). -/

namespace Sys2Proof.Machine

/-- One of the three byte buffers (R36), each its own address space from 0: cells of address and byte, addresses strictly
rising. An address no cell lists has no value. -/
abbrev Memory := List Host.Cell

/-- The canonical form of a buffer: addresses strictly rising. An unlisted address has no value, so no cell can equal
what an unlisted address reads as. -/
def Memory.wf : Memory → Bool
  | [] => true
  | [_] => true
  | c :: d :: rest => decide (c.1 < d.1) && Memory.wf (d :: rest)

/-- The closed list of error kinds (R30, R210). -/
inductive ErrKind where
  | noError
  | malformedFrame
  | truncatedFrame
  | unknownCommand
  | incompleteLine
deriving DecidableEq, Repr

/-- The numeric codes of R210 (D3). -/
def ErrKind.code : ErrKind → Nat
  | .noError => 0
  | .malformedFrame => 1
  | .truncatedFrame => 2
  | .unknownCommand => 3
  | .incompleteLine => 4

/-- The dispatcher's control state (R31). -/
inductive FsmState where
  | awaitingTerminator
  | dispatching
deriving DecidableEq, Repr

/-- One call into the CAN hardware collaborator (R43). -/
inductive Effect where
  | setup (preset : Nibble)
  | openBus
  | listen
  | closeBus
  | transmit (frame : CanFrame)
  | poll
  | auto
  | status
  | config (letter : Byte) (args : List Byte)
  | devId
deriving DecidableEq, Repr

/-- Why the machine stops with a fault. The spec has no fatal outcome (R153). -/
inductive Fault where
  /-- Raised by `LineRead` at an index below `LEN` to which `LINE` holds no byte. Every dispatch transaction latches the
  whole chunk first, so no step raises it: it can be met only by running a shared operation on a state that no
  transaction leaves. Safe: a stop where there is no value. -/
  | unwrittenLineByte
deriving DecidableEq, Repr

/-- Why the model gives no next state. -/
inductive Refusal where
  /-- Raised by an arm of `exec` that has no meaning yet; this model has none. Safe. -/
  | notModelled (mnemonic : String)
  /-- Raised at the start of a dispatch transaction whose chunk is longer than `LINE_MAX`: "a chunk longer than
  `LINE_MAX` is never presented; the model refuses it" (R59). Safe. -/
  | chunkTooLong
  /-- Raised by `RespAppend` at `RLEN = RESP_CAP` (R57 `require`). Only an `F` whose `STATUS_BYTES` exceed
  `RESP_CAP - 1` (against R182) meets it. Safe. -/
  | responseFull
  /-- Raised by `OutAppend` at `OLEN = OUT_CAP` (R58 `require`). No step meets it. Safe. -/
  | outputFull
deriving DecidableEq, Repr

/-- Everything the spec gives the block, and what stands at its ports. -/
@[ext]
structure State where
  /-- The build's parameters (R7); no step changes them. -/
  cfg : Config
  /-- The triggers the external scheduler will fire, in its order (R12, R60); the environment's, not the block's. -/
  schedule : List Trigger
  /-- The input `DEVICE_ID` (R42). -/
  deviceId : Word32
  /-- The input `STATUS_BYTES` (R42). -/
  statusBytes : List Byte
  /-- `LINE`, the borrowed chunk (R36). -/
  line : Memory
  /-- `LEN`, its length (R36). -/
  len : Nat
  /-- `RESP`, the borrowed response buffer (R36). -/
  resp : Memory
  /-- `RLEN`, the response cursor (R28). -/
  rlen : Nat
  /-- `OUT`, the borrowed output buffer of the encoder (R36). -/
  out : Memory
  /-- `OLEN`, the encoder's output cursor (R29). -/
  olen : Nat
  /-- `FRAME`, the frame register (R22). -/
  frame : CanFrame
  /-- `POS`, the line cursor (R27). -/
  pos : Nat
  /-- `ERR`, the error kind of the transaction (R30). -/
  err : ErrKind
  /-- `FSM`, the dispatcher's control state (R31). -/
  fsm : FsmState
  /-- `FX`, the effect of the dispatch transaction, if any (R32). -/
  fx : Option Effect
deriving DecidableEq, Repr

/-- The outcome type of a step. -/
abbrev Out := Host.Outcome State Fault Refusal

/-! ### Updates, one per register or port -/

namespace State

def withSchedule (s : State) (ts : List Trigger) : State := { s with schedule := ts }
def withInputs (s : State) (dev : Word32) (st : List Byte) : State := { s with deviceId := dev, statusBytes := st }
def withLine (s : State) (m : Memory) (n : Nat) : State := { s with line := m, len := n }
def withResp (s : State) (m : Memory) (n : Nat) : State := { s with resp := m, rlen := n }
def withOut (s : State) (m : Memory) (n : Nat) : State := { s with out := m, olen := n }
def withFrame (s : State) (f : CanFrame) : State := { s with frame := f }
def withPos (s : State) (p : Nat) : State := { s with pos := p }
def withErr (s : State) (e : ErrKind) : State := { s with err := e }
def withFsm (s : State) (f : FsmState) : State := { s with fsm := f }
def withFx (s : State) (f : Option Effect) : State := { s with fx := f }

/-- The machine right after reset (R47, R240): `FSM`, `ERR`, `FX`, `RLEN` and `OLEN` as the spec says; `POS` and `FRAME`,
"unspecified" there, zero (assumption 6); no trigger pending, no chunk or buffer lent yet (assumptions 2, 7). -/
def reset : State where
  cfg := Config.ofReset
  schedule := []
  deviceId := 0#32
  statusBytes := []
  line := []
  len := 0
  resp := []
  rlen := 0
  out := []
  olen := 0
  frame := { id := 0#29, ext := false, rtr := false, dlc := 0#4, data := ⟨0, 0, 0, 0, 0, 0, 0, 0⟩ }
  pos := 0
  err := .noError
  fsm := .awaitingTerminator
  fx := none

end State

end Sys2Proof.Machine
end

