-- ==== Sys2Proof/Machine/Flags.lean ====
section
/-! DEFINITION. The status registers `ERR`, `FSM`, `FX` (spec/10_state.md R30 to R32): raising an error, issuing an
effect, and what the start of a transaction clears. The block has no other flags: "no carry, no overflow, no condition
codes" (R30). -/

namespace Sys2Proof.Machine

/-- `raise k`: "`ERR` is written (if it was `None`)", and nothing else: no state is saved, no mode or mask changes, and
control goes back to the caller (R222). Ending the raising operation is the caller's `Res.raised`. -/
def raise (k : ErrKind) (s : State) : State := if s.err = .noError then s.withErr k else s

/-- `issue FX_<NAME>(args)` (R11, R43). -/
def issue (e : Effect) (s : State) : State := s.withFx (some e)

/-- The first line of R141: `FSM <- AwaitingTerminator; RLEN <- 0; ERR <- None; FX <- None`. -/
def clearForDispatch (s : State) : State :=
  ((s.withFsm .awaitingTerminator).withResp s.resp 0 |>.withErr .noError).withFx none

/-- The first line of R100: `ERR <- None; OLEN <- 0`. -/
def clearForEncode (s : State) : State := (s.withErr .noError).withOut s.out 0

end Sys2Proof.Machine
end

