-- ==== Sys2Proof/Machine/Ops.lean ====
section
/-! DEFINITION. The named operations over buffers and registers: reading and writing one byte of a buffer, `LineRead`,
`RespAppend`, `OutAppend` (spec/20_memory.md R56 to R58), `ConstructFrame` (spec/10_state.md R24), and the frame of a
dispatch transaction around a handler (spec/42_dispatcher.md R141). -/

namespace Sys2Proof.Machine

/-! ### Buffers -/

/-- The byte at an address, or none where no byte has been written. -/
def Memory.read : Memory → Nat → Option Byte
  | [], _ => none
  | c :: rest, a => if c.1 = a then some c.2 else Memory.read rest a

/-- Write one byte, keeping addresses strictly rising. -/
def Memory.write : Memory → Nat → Byte → Memory
  | [], a, b => [(a, b)]
  | c :: rest, a, b =>
    if c.1 < a then c :: Memory.write rest a b
    else if c.1 = a then (a, b) :: rest
    else (a, b) :: c :: rest

/-- A list of bytes laid out from an address upward. -/
def Memory.ofBytesAt : Nat → List Byte → Memory
  | _, [] => []
  | a, b :: bs => (a, b) :: Memory.ofBytesAt (a + 1) bs

/-- The chunk as the buffer `LINE[0..LEN-1]` (R36). -/
def Memory.ofBytes (bs : List Byte) : Memory := Memory.ofBytesAt 0 bs

/-- `n` bytes appended one after another from an address upward. -/
def Memory.writeAll : Memory → Nat → List Byte → Memory
  | m, _, [] => m
  | m, a, b :: bs => Memory.writeAll (m.write a b) (a + 1) bs

/-- The bytes at `a`, `a + 1`, … (`n` of them), or none if one of them has no value. -/
def Memory.slice (m : Memory) : Nat → Nat → Option (List Byte)
  | _, 0 => some []
  | a, n + 1 =>
    match m.read a, m.slice (a + 1) n with
    | some b, some bs => some (b :: bs)
    | _, _ => none

/-- The valid part `RESP[0..RLEN-1]` (R28, R36): what leaves the block after a dispatch transaction. -/
def State.response (s : State) : Option (List Byte) := s.resp.slice 0 s.rlen

/-- The valid part `OUT[0..OLEN-1]` (R29, R36): what leaves the block after an encode transaction. -/
def State.output (s : State) : Option (List Byte) := s.out.slice 0 s.olen

/-! ### Sequencing -/

/-- Go on with the next state, or stop as the first part stopped. -/
def andThen (o : Out) (k : State → Out) : Out :=
  match o with
  | .next s => k s
  | .fault f => .fault f
  | .refused r => .refused r

/-- The result of an operation that may raise: it answers a value, or it raised and ended there (R222), or it met the
model's fault. -/
inductive Res (α : Type) where
  | ok (a : α) (s : State)
  | raised (s : State)
  | stop (f : Fault)
deriving Repr

/-- Go on after an operation that answered; "every `raise` ends `Decode` at once" (R129). -/
def Res.bind {α β : Type} (r : Res α) (k : α → State → Res β) : Res β :=
  match r with
  | .ok a s => k a s
  | .raised s => .raised s
  | .stop f => .stop f

/-- Return to the caller with the state as it stands, whether the operation answered or raised: the handler tells the
two apart by `ERR` (R170). -/
def Res.toCaller {α : Type} (r : Res α) (k : State → Out) : Out :=
  match r with
  | .ok _ s => k s
  | .raised s => k s
  | .stop f => .fault f

/-! ### The access primitives -/

/-- `LineRead(i)`: `if i >= LEN then raise TruncatedFrame; return LINE[i]` (R56). -/
def lineRead (i : Nat) (s : State) : Res Byte :=
  if s.len ≤ i then .raised (raise .truncatedFrame s)
  else
    match s.line.read i with
    | some b => .ok b s
    | none => .stop .unwrittenLineByte

/-- The `n` bytes `LINE[i]`, `LINE[i+1]`, …, each by `LineRead` (R54: every read is of one byte). -/
def lineReadMany : Nat → Nat → State → Res (List Byte)
  | _, 0, s => .ok [] s
  | i, n + 1, s =>
    (lineRead i s).bind fun b s => (lineReadMany (i + 1) n s).bind fun bs s => .ok (b :: bs) s

/-- `RespAppend(b)`: `require RLEN < RESP_CAP; RESP[RLEN] <- b; RLEN <- RLEN + 1` (R57). -/
def respAppend (b : Byte) (s : State) : Out :=
  if s.rlen < s.cfg.respCap then .next (s.withResp (s.resp.write s.rlen b) (s.rlen + 1))
  else .refused .responseFull

/-- `for each byte b of bs in order: RespAppend(b)` (R182, R200). -/
def respAppendAll : List Byte → State → Out
  | [], s => .next s
  | b :: bs, s => andThen (respAppend b s) (respAppendAll bs)

/-- `OutAppend(b)`: `require OLEN < OUT_CAP; OUT[OLEN] <- b; OLEN <- OLEN + 1` (R58). -/
def outAppend (b : Byte) (s : State) : Out :=
  if s.olen < s.cfg.outCap then .next (s.withOut (s.out.write s.olen b) (s.olen + 1))
  else .refused .outputFull

/-- `OutAppend` of each byte in order. -/
def outAppendAll : List Byte → State → Out
  | [], s => .next s
  | b :: bs, s => andThen (outAppend b s) (outAppendAll bs)

/-! ### The frame register -/

/-- The value R24 writes: `id[28:0]`, the flags and the DLC as given, and zero in every data byte that is not meaningful
(a data frame's bytes at `dlc` and above, all bytes of a remote frame). -/
def builtFrame (id : Word32) (ext rtr : Bool) (dlc : Nibble) (data : Data8) : CanFrame :=
  { id := id.setWidth 29, ext, rtr, dlc, data := if rtr then Data8.zero else data.keep dlc.toNat }

/-- `ConstructFrame` (R24): the three checks in their order, each raising `MalformedFrame` and leaving `FRAME` alone. -/
def constructFrame (id : Word32) (ext rtr : Bool) (dlc : Nibble) (data : Data8) (s : State) : Res Unit :=
  if dlcMax < dlc then .raised (raise .malformedFrame s)
  else if ext = false ∧ stdIdMax < id then .raised (raise .malformedFrame s)
  else if ext = true ∧ extIdMax < id then .raised (raise .malformedFrame s)
  else .ok () (s.withFrame (builtFrame id ext rtr dlc data))

/-! ### The dispatch transaction around a handler -/

/-- The start of a dispatch transaction: the chunk is borrowed as `LINE`, `LEN` (R40), and the working registers are
cleared (R141). -/
def beginDispatch (line : List Byte) (s : State) : State :=
  clearForDispatch (s.withLine (Memory.ofBytes line) line.length)

/-- Step 4: append one CR, unconditionally, and go back to `AwaitingTerminator` (R146, R147). -/
def endDispatch (s : State) : Out :=
  andThen (respAppend cr s) fun s => .next (s.withFsm .awaitingTerminator)

/-- A complete line whose byte 0 has a table entry (R141): `Dispatching` from the passed terminator check, the handler,
step 4. A line longer than `LINE_MAX` is refused (R59). -/
def runCommand (line : List Byte) (handler : State → Out) (s : State) : Out :=
  if lineMax < line.length then .refused .chunkTooLong
  else andThen (handler ((beginDispatch line s).withFsm .dispatching)) endDispatch

/-- A chunk that fails the terminator check (R142, R143): `ERR <- IncompleteLine`, one CR, `FSM` stays. -/
def rejectIncomplete (line : List Byte) (s : State) : Out :=
  respAppend cr (raise .incompleteLine (beginDispatch line s))

/-- A complete line whose byte 0 has no table entry (R144): `ERR <- UnknownCommand`, no handler, step 4 still runs. -/
def rejectUnknown (line : List Byte) (s : State) : Out :=
  endDispatch (raise .unknownCommand ((beginDispatch line s).withFsm .dispatching))

end Sys2Proof.Machine
end

