-- ==== Sys2Proof/Machine/Operands.lean ====
section
/-! DEFINITION. The operand forms of the command lines: one nibble at the cursor (spec/41_codec_decode.md R122), the
identifier, DLC and data fields (R123 to R126), the preset digit (spec/30_encoding.md R81) and the uninterpreted
arguments (spec/46_cmd_config.md R198). -/

namespace Sys2Proof.Machine

/-- `NibbleAtPos()` (R122): presence first, hexadecimality second, and `POS` advances only on success. -/
def nibbleAtPos (s : State) : Res Nibble :=
  (lineRead s.pos s).bind fun b s =>
    match hexVal b with
    | none => .raised (raise .malformedFrame s)
    | some v => .ok v (s.withPos (s.pos + 1))

/-- `repeat n times: acc <- acc * 16 + NibbleAtPos()` (R123, R77). -/
def readIdentifier : Nat → Word32 → State → Res Word32
  | 0, acc, s => .ok acc s
  | n + 1, acc, s => (nibbleAtPos s).bind fun v s => readIdentifier n (acc * 16#32 + v.setWidth 32) s

/-- One `NibbleAtPos`, and the range check at once (R124, R79). -/
def readDlc (s : State) : Res Nibble :=
  (nibbleAtPos s).bind fun v s => if dlcMax < v then .raised (raise .malformedFrame s) else .ok v s

/-- `hi <- NibbleAtPos(); lo <- NibbleAtPos(); d[i] <- hi * 16 + lo` (R125, R80). -/
def readDataByte (s : State) : Res Byte :=
  (nibbleAtPos s).bind fun hi s => (nibbleAtPos s).bind fun lo s => .ok (byteOfNibbles hi lo) s

/-- `n` data bytes, in index order (R125). -/
def readData : Nat → State → Res (List Byte)
  | 0, s => .ok [] s
  | n + 1, s => (readDataByte s).bind fun b s => (readData n s).bind fun bs s => .ok (b :: bs) s

/-- The frame kind of byte 0: `ext` and `rtr` (R121); none for any other leading character. -/
def frameKind (c : Byte) : Option (Bool × Bool) :=
  if c = 0x74#8 then some (false, false)
  else if c = 0x54#8 then some (true, false)
  else if c = 0x72#8 then some (false, true)
  else if c = 0x52#8 then some (true, true)
  else none

/-- The leading character of a frame's kind (R101). -/
def leadChar : Bool → Bool → Byte
  | false, false => 0x74#8
  | true, false => 0x54#8
  | false, true => 0x72#8
  | true, true => 0x52#8

/-- The argument of `S` (R160): `POS <- 1`, `LINE[1]`, its `HexVal`, at most 8. -/
def readPreset (s : State) : Res Nibble :=
  (lineRead 1 (s.withPos 1)).bind fun b s =>
    match hexVal b with
    | none => .raised (raise .malformedFrame s)
    | some v => if presetMax < v then .raised (raise .malformedFrame s) else .ok v s

/-- The letter `LINE[0]` and the bytes `LINE[1..LEN-2]`, uninterpreted (R198). -/
def readConfigArgs (s : State) : Res (Byte × List Byte) :=
  (lineRead 0 s).bind fun c s => (lineReadMany 1 (s.len - 2) s).bind fun args s => .ok (c, args) s

end Sys2Proof.Machine
end

