-- ==== Sys2Proof/Machine/BusControl.lean ====
section
/-! DEFINITION. The bus control commands S, O, L, C (spec/43_cmd_bus_control.md). -/

namespace Sys2Proof.Machine

/-- A handler that issues one effect and does nothing else (R161 to R163, R180, R181). -/
def issueOnly (e : Effect) (s : State) : Out := .next (issue e s)

/-- handler S (R160): a preset of 0 to 8 issues `FX_SETUP(n)`; anything else raises `MalformedFrame`, no effect. -/
def handleSetup (s : State) : Out :=
  match readPreset s with
  | .ok n s => .next (issue (.setup n) s)
  | .raised s => .next s
  | .stop f => .fault f

/-- `S` (R160). -/
def execSetup (args : List Byte) (s : State) : Out := runCommand (commandLine 0x53#8 args) handleSetup s

/-- `O` (R161). -/
def execOpenBus (args : List Byte) (s : State) : Out := runCommand (commandLine 0x4F#8 args) (issueOnly .openBus) s

/-- `L` (R162). -/
def execListenBus (args : List Byte) (s : State) : Out := runCommand (commandLine 0x4C#8 args) (issueOnly .listen) s

/-- `C` (R163). -/
def execCloseBus (args : List Byte) (s : State) : Out := runCommand (commandLine 0x43#8 args) (issueOnly .closeBus) s

end Sys2Proof.Machine
end

