-- ==== Sys2Proof/Machine/ConfigCommands.lean ====
section
/-! DEFINITION. The configuration commands s, X, W, M, m, U, Z, Q (spec/46_cmd_config.md). -/

namespace Sys2Proof.Machine

/-- handler config (R198): `FX_CONFIG(LINE[0], LINE[1..LEN-2])`, nothing checked, nothing appended. -/
def handleConfig (s : State) : Out :=
  match readConfigArgs s with
  | .ok p s => .next (issue (.config p.1 p.2) s)
  | .raised s => .next s
  | .stop f => .fault f

/-- `s` (R190). -/
def execCfgLowerS (args : List Byte) (s : State) : Out := runCommand (commandLine 0x73#8 args) handleConfig s

/-- `X` (R191). -/
def execCfgX (args : List Byte) (s : State) : Out := runCommand (commandLine 0x58#8 args) handleConfig s

/-- `W` (R192). -/
def execCfgW (args : List Byte) (s : State) : Out := runCommand (commandLine 0x57#8 args) handleConfig s

/-- `M` (R193). -/
def execCfgUpperM (args : List Byte) (s : State) : Out := runCommand (commandLine 0x4D#8 args) handleConfig s

/-- `m` (R194). -/
def execCfgLowerM (args : List Byte) (s : State) : Out := runCommand (commandLine 0x6D#8 args) handleConfig s

/-- `U` (R195). -/
def execCfgU (args : List Byte) (s : State) : Out := runCommand (commandLine 0x55#8 args) handleConfig s

/-- `Z` (R196). -/
def execCfgZ (args : List Byte) (s : State) : Out := runCommand (commandLine 0x5A#8 args) handleConfig s

/-- `Q` (R197). -/
def execCfgQ (args : List Byte) (s : State) : Out := runCommand (commandLine 0x51#8 args) handleConfig s

end Sys2Proof.Machine
end

