-- ==== Sys2Proof/Machine/Codec.lean ====
section
/-! DEFINITION. The codec: `Decode` (spec/41_codec_decode.md R129), `Encode` (spec/40_codec_encode.md R106) and the
encode transaction (R100). -/

namespace Sys2Proof.Machine

/-- The data field of a line: nothing for a remote frame (R126), `dlc` bytes for a data frame (R125). -/
def readDataField (rtr : Bool) (dlc : Nibble) (s : State) : Res (List Byte) :=
  if rtr then .ok [] s else readData dlc.toNat s

/-- `Decode()` from the frame kind on: `POS <- 1`, identifier, DLC, data, `ConstructFrame` (R129). -/
def decodeFields (ext rtr : Bool) (s : State) : Res Unit :=
  (readIdentifier (idNibbles ext) 0#32 (s.withPos 1)).bind fun acc s =>
    (readDlc s).bind fun dlc s =>
      (readDataField rtr dlc s).bind fun bytes s =>
        constructFrame acc ext rtr dlc (Data8.ofList bytes) s

/-- `Decode()` (R129): reads `LINE`, `LEN`; writes `POS`, `FRAME`, `ERR`. -/
def decodeFrame (s : State) : Res Unit :=
  (lineRead 0 (s.withPos 0)).bind fun c s =>
    match frameKind c with
    | none => .raised (raise .malformedFrame s)
    | some (ext, rtr) => decodeFields ext rtr s

/-- The data characters `Encode` appends: none for a remote frame, those of the first `dlc` bytes otherwise (R104). -/
def dataDigits (f : CanFrame) : List Byte :=
  if f.rtr then [] else (f.data.toList.take f.dlc.toNat).flatMap byteDigits

/-- `Encode()` (R106): reads `FRAME`; writes `OUT`, `OLEN`. -/
def encodeFrame (s : State) : Out :=
  andThen (outAppend (leadChar s.frame.ext s.frame.rtr) s) fun s =>
    andThen (outAppendAll (hexDigits (idNibbles s.frame.ext) (s.frame.id.setWidth 32)) s) fun s =>
      andThen (outAppend (hexChar s.frame.dlc) s) fun s =>
        andThen (outAppendAll (dataDigits s.frame) s) fun s =>
          outAppend cr s

/-- `EncodeFrame(in_id, in_ext, in_rtr, in_dlc, in_data)` (R100): clear, construct, and encode if nothing was raised. -/
def encodeTransaction (raw : CanFrame) (s : State) : Out :=
  (constructFrame (raw.id.setWidth 32) raw.ext raw.rtr raw.dlc raw.data (clearForEncode s)).toCaller fun s =>
    if s.err = .noError then encodeFrame s else .next s

end Sys2Proof.Machine
end

