-- ==== Sys2Proof/Machine/EmittedForms.lean ====
section
/-! DEFINITION. The four emitted forms (spec/40_codec_encode.md R110 to R113): the encode transaction of a raw frame
with the form's flags. An ill-formed raw frame is rejected inside the transaction (R109). -/

namespace Sys2Proof.Machine

/-- `EMIT.t` (R110). -/
def execEmitStdData (id : BitVec 29) (dlc : Nibble) (data : Data8) (s : State) : Out :=
  encodeTransaction { id, ext := false, rtr := false, dlc, data } s

/-- `EMIT.T` (R111). -/
def execEmitExtData (id : BitVec 29) (dlc : Nibble) (data : Data8) (s : State) : Out :=
  encodeTransaction { id, ext := true, rtr := false, dlc, data } s

/-- `EMIT.r` (R112). -/
def execEmitStdRemote (id : BitVec 29) (dlc : Nibble) (data : Data8) (s : State) : Out :=
  encodeTransaction { id, ext := false, rtr := true, dlc, data } s

/-- `EMIT.R` (R113). -/
def execEmitExtRemote (id : BitVec 29) (dlc : Nibble) (data : Data8) (s : State) : Out :=
  encodeTransaction { id, ext := true, rtr := true, dlc, data } s

end Sys2Proof.Machine
end

