-- ==== Sys2Proof/Machine/FrameTransmit.lean ====
section
/-! DEFINITION. The frame transmit commands t, T, r, R (spec/44_cmd_frame_transmit.md). -/

namespace Sys2Proof.Machine

/-- handler frame (R170): `Decode()`; if `ERR = None` issue `FX_TRANSMIT` of `FRAME`; nothing appended. -/
def handleFrame (s : State) : Out :=
  (decodeFrame s).toCaller fun s => if s.err = .noError then .next (issue (.transmit s.frame) s) else .next s

/-- `t` (R171). -/
def execTxStdData (args : List Byte) (s : State) : Out := runCommand (commandLine 0x74#8 args) handleFrame s

/-- `T` (R172). -/
def execTxExtData (args : List Byte) (s : State) : Out := runCommand (commandLine 0x54#8 args) handleFrame s

/-- `r` (R173). -/
def execTxStdRemote (args : List Byte) (s : State) : Out := runCommand (commandLine 0x72#8 args) handleFrame s

/-- `R` (R174). -/
def execTxExtRemote (args : List Byte) (s : State) : Out := runCommand (commandLine 0x52#8 args) handleFrame s

end Sys2Proof.Machine
end

