-- ==== Sys2Proof/Machine/Identification.lean ====
section
/-! DEFINITION. The identification commands V, N (spec/47_cmd_identification.md). -/

namespace Sys2Proof.Machine

/-- handler V (R200): `VERSION_BYTES` appended verbatim; no effect. -/
def handleVersion (s : State) : Out := respAppendAll s.cfg.versionBytes s

/-- handler N (R201): `FX_DEVID`, then `DEVICE_ID` as eight upper-case characters, most significant nibble first. -/
def handleDeviceIdent (s : State) : Out := respAppendAll (hexDigits 8 s.deviceId) (issue .devId s)

/-- `V` (R200). -/
def execVersion (args : List Byte) (s : State) : Out := runCommand (commandLine 0x56#8 args) handleVersion s

/-- `N` (R201). -/
def execDeviceIdent (args : List Byte) (s : State) : Out := runCommand (commandLine 0x4E#8 args) handleDeviceIdent s

end Sys2Proof.Machine
end

