-- ==== Sys2Proof/Machine/ModeStatus.lean ====
section
/-! DEFINITION. The mode and status commands P, A, F (spec/45_cmd_mode_status.md). -/

namespace Sys2Proof.Machine

/-- handler F (R182): `FX_STATUS`, then the collaborator's `STATUS_BYTES`, appended verbatim. -/
def handleStatus (s : State) : Out := respAppendAll s.statusBytes (issue .status s)

/-- `P` (R180). -/
def execPollMode (args : List Byte) (s : State) : Out := runCommand (commandLine 0x50#8 args) (issueOnly .poll) s

/-- `A` (R181). -/
def execAutoMode (args : List Byte) (s : State) : Out := runCommand (commandLine 0x41#8 args) (issueOnly .auto) s

/-- `F` (R182). -/
def execReadStatus (args : List Byte) (s : State) : Out := runCommand (commandLine 0x46#8 args) handleStatus s

end Sys2Proof.Machine
end

