-- ==== Sys2Proof/Machine/Dispatch.lean ====
section
/-! DEFINITION. One arm per instruction: the whole transaction it stands for (spec/00_scope.md R12). -/

namespace Sys2Proof.Machine

def exec (i : Instr) (s : State) : Host.Outcome State Fault Refusal :=
  match i with
  -- the dispatch port
  | .setup args => Sys2Proof.Machine.execSetup args s
  | .cfgLowerS args => Sys2Proof.Machine.execCfgLowerS args s
  | .openBus args => Sys2Proof.Machine.execOpenBus args s
  | .listenBus args => Sys2Proof.Machine.execListenBus args s
  | .closeBus args => Sys2Proof.Machine.execCloseBus args s
  | .txStdData args => Sys2Proof.Machine.execTxStdData args s
  | .txExtData args => Sys2Proof.Machine.execTxExtData args s
  | .txStdRemote args => Sys2Proof.Machine.execTxStdRemote args s
  | .txExtRemote args => Sys2Proof.Machine.execTxExtRemote args s
  | .pollMode args => Sys2Proof.Machine.execPollMode args s
  | .autoMode args => Sys2Proof.Machine.execAutoMode args s
  | .readStatus args => Sys2Proof.Machine.execReadStatus args s
  | .cfgX args => Sys2Proof.Machine.execCfgX args s
  | .cfgW args => Sys2Proof.Machine.execCfgW args s
  | .cfgUpperM args => Sys2Proof.Machine.execCfgUpperM args s
  | .cfgLowerM args => Sys2Proof.Machine.execCfgLowerM args s
  | .cfgU args => Sys2Proof.Machine.execCfgU args s
  | .version args => Sys2Proof.Machine.execVersion args s
  | .deviceIdent args => Sys2Proof.Machine.execDeviceIdent args s
  | .cfgZ args => Sys2Proof.Machine.execCfgZ args s
  | .cfgQ args => Sys2Proof.Machine.execCfgQ args s
  -- the encode port
  | .emitStdData id dlc data => Sys2Proof.Machine.execEmitStdData id dlc data s
  | .emitExtData id dlc data => Sys2Proof.Machine.execEmitExtData id dlc data s
  | .emitStdRemote id dlc data => Sys2Proof.Machine.execEmitStdRemote id dlc data s
  | .emitExtRemote id dlc data => Sys2Proof.Machine.execEmitExtRemote id dlc data s

end Sys2Proof.Machine
end

