-- ==== Sys2Proof/Machine/Ports.lean ====
section
/-! DEFINITION. What a trigger brings to the ports before its transaction starts, and what becomes of a chunk that
selects no handler (spec/42_dispatcher.md R141 to R144, spec/60_exceptions.md R224), and the end of a run
(spec/70_reset_and_hazards.md R251). -/

namespace Sys2Proof.Machine

/-- The trigger `t` fires: it leaves the schedule, and a chunk brings the collaborator's inputs of its transaction
(R42). -/
def acceptTrigger (t : Trigger) (rest : List Trigger) (s : State) : State :=
  match t with
  | .chunk _ deviceId statusBytes => (s.withSchedule rest).withInputs deviceId statusBytes
  | .frame _ => s.withSchedule rest

/-- The chunk of a trigger (none of the encode port's triggers fails to decode). -/
def chunkOf : Trigger → List Byte
  | .chunk line _ _ => line
  | .frame _ => []

/-- The dispatch transaction of a chunk that selects no handler (R142, R144), or the refusal of one too long (R59). -/
def rejectChunk (e : DecodeError) (line : List Byte) (s : State) : Out :=
  match e with
  | .chunkTooLong => .refused .chunkTooLong
  | .incompleteLine => rejectIncomplete line s
  | .unknownCommand => rejectUnknown line s

/-- The end of a run: "the final state is the reset state again" (R251, R47), on the same build. The outputs of the last
transaction and what the caller lent are gone; nothing persists (R20). Where R47 says "unspecified" or "not the block's",
this is what `State.reset` holds there (assumptions 6, 7, 18). -/
def endRun (s : State) : State := { State.reset with cfg := s.cfg }

end Sys2Proof.Machine
end

