-- ==== Sys2Proof/Machine/Step.lean ====
section
/-! DEFINITION. One step is one transaction (spec/00_scope.md R12, spec/20_memory.md R60): the next trigger of the
schedule fires, its chunk or frame is decoded, and the instruction runs. -/

namespace Sys2Proof.Machine

/-- One step. With no trigger left the run is over and the state is the reset state again (R251), in which "the block is
idle until a trigger arrives" (R47, R241). -/
def step (s : State) : Host.Outcome State Fault Refusal :=
  match s.schedule with
  | [] => .next (endRun s)
  | t :: rest =>
    match decodeTrigger t with
    | .ok i => exec i (acceptTrigger t rest s)
    | .error e => rejectChunk e (chunkOf t) (acceptTrigger t rest s)

/-- The state in which the next trigger delivers the shortest complete line with the table's word (`tableLine`); the
collaborator's inputs stay as they are. -/
def State.withFetchWord (s : State) (nbits w : Nat) : State :=
  s.withSchedule (.chunk (tableLine nbits w) s.deviceId s.statusBytes :: s.schedule)

end Sys2Proof.Machine
end

