-- ==== Sys2Proof/Safety.lean ====
section
/-! DEFINITION. The terms claims use: what a run lets an observer see (spec/70_reset_and_hazards.md R251), what the
environment owes the block (R243 to R250), the invariant between transactions, equality of frames (spec/10_state.md
R25), and the values the text of a line stands for (spec/30_encoding.md R77, R80). -/

namespace Sys2Proof

/-- R25, equal as frames: `id`, `ext`, `rtr`, `dlc` equal and, for data frames, the first `dlc` data bytes equal. -/
def CanFrame.sameFrame (f g : CanFrame) : Prop :=
  f.id = g.id ∧ f.ext = g.ext ∧ f.rtr = g.rtr ∧ f.dlc = g.dlc ∧
    (f.rtr = false → f.data.toList.take f.dlc.toNat = g.data.toList.take g.dlc.toNat)

/-- R24's zero fill: the data bytes that are not meaningful are zero. -/
def CanFrame.zeroFilled (f : CanFrame) : Prop :=
  f.data = if f.rtr then Data8.zero else f.data.keep f.dlc.toNat

/-- The value of identifier characters, `acc <- acc * 16 + nibble` from 0 (R77). -/
def identValue (vs : List Nibble) : Word32 := vs.foldl (fun acc v => acc * 16#32 + v.setWidth 32) 0#32

/-- The nibbles of hexadecimal characters, or none if one of them is not hexadecimal (R74). -/
def hexVals : List Byte → Option (List Nibble)
  | [] => some []
  | c :: cs =>
    match hexVal c, hexVals cs with
    | some v, some vs => some (v :: vs)
    | _, _ => none

/-- The bytes of pairs of hexadecimal characters, high nibble first (R80), or none if one is not hexadecimal or a pair is
short. -/
def hexBytes : List Byte → Option (List Byte)
  | [] => some []
  | [_] => none
  | h :: l :: cs =>
    match hexVal h, hexVal l, hexBytes cs with
    | some vh, some vl, some bs => some (byteOfNibbles vh vl :: bs)
    | _, _, _ => none

/-- A lower-case hexadecimal letter made upper case, any other byte as it is (R76). -/
def upperHex (b : Byte) : Byte := if 0x61#8 ≤ b ∧ b ≤ 0x66#8 then b - 0x20#8 else b

namespace Machine

/-- What is seen of one transaction (R251). -/
inductive Observation where
  | dispatch (resp : Option (List Byte)) (fx : Option Effect) (err : ErrKind)
  | encoded (out : Option (List Byte)) (err : ErrKind)
deriving DecidableEq, Repr

/-- The outputs of the transaction that trigger `t` started, in the state it left (R251). -/
def observe (t : Trigger) (s : State) : Observation :=
  match t with
  | .chunk _ _ _ => .dispatch s.response s.fx s.err
  | .frame _ => .encoded s.output s.err

/-- The observation of a run: one `step` for each trigger, in order (R251); none if a step stops. -/
def observeRun : List Trigger → State → Option (List Observation)
  | [], _ => some []
  | t :: ts, s =>
    match step (s.withSchedule (t :: ts)) with
    | .next s' => (observeRun ts s').map (observe t s' :: ·)
    | .fault _ => none
    | .refused _ => none

/-- What one trigger shows when it is the first thing that happens after reset, on a build with configuration `c`. -/
def observeAlone (c : Config) (t : Trigger) : Option Observation :=
  match step { State.reset with cfg := c, schedule := [t] } with
  | .next s' => some (observe t s')
  | .fault _ => none
  | .refused _ => none

/-- The final state of a run: one `step` for each trigger, in order, and the step that finds no further trigger (R251);
none if a step stops. -/
def finalState : List Trigger → State → Option State
  | [], s =>
    match step (s.withSchedule []) with
    | .next s' => some s'
    | .fault _ => none
    | .refused _ => none
  | t :: ts, s =>
    match step (s.withSchedule (t :: ts)) with
    | .next s' => finalState ts s'
    | .fault _ => none
    | .refused _ => none

/-- The state an infinite run is in after `n` transactions (R12: "a finite or infinite sequence of transactions in the order
an external scheduler starts them"). The whole sequence `ts` is the scheduler's and no part of the state; each trigger
comes into the schedule when it fires (assumption 1). None if a step stopped before. -/
def stateAt (ts : Nat → Trigger) (s : State) : Nat → Option State
  | 0 => some s
  | n + 1 =>
    match stateAt ts s n with
    | none => none
    | some u =>
      match step (u.withSchedule [ts n]) with
      | .next u' => some u'
      | .fault _ => none
      | .refused _ => none

/-- The observation of the transaction of index `n` of an infinite run (R251); the run's is the sequence of them all. -/
def observeAt (ts : Nat → Trigger) (s : State) (n : Nat) : Option Observation :=
  (stateAt ts s (n + 1)).map (observe (ts n))

/-- What the environment owes the block with a trigger: a chunk of at most `LINE_MAX` bytes (R247) and status bytes that
leave room for the terminator (R182: "of any length up to `RESP_CAP - 1`"). -/
def Trigger.legal (c : Config) : Trigger → Prop
  | .chunk line _ statusBytes => line.length ≤ lineMax ∧ statusBytes.length < c.respCap
  | .frame _ => True

/-- `s'` is what a dispatch transaction leaves that answered `bytes` and one CR, issued `fx` and reported `err`: `LINE` and
`LEN` hold the chunk, the answer stands in `RESP` from 0, `FSM` is back where it was, `POS` and `FRAME` are as given, and
everything else (build, schedule, inputs, `OUT`, `OLEN`) is as in `s`. -/
def afterDispatch (s : State) (line bytes : List Byte) (fx : Option Effect) (err : ErrKind) (pos : Nat)
    (frame : CanFrame) : State :=
  { s with
    line := Memory.ofBytes line
    len := line.length
    resp := s.resp.writeAll 0 (bytes ++ [cr])
    rlen := bytes.length + 1
    fx := fx
    err := err
    pos := pos
    frame := frame
    fsm := .awaitingTerminator }

/-- The chunk `line` in the buffer `LINE`, for applying `Decode` on its own (R120, R131). -/
def State.holding (s : State) (line : List Byte) : State := s.withLine (Memory.ofBytes line) line.length

/-- What holds between transactions, whatever ran before. -/
structure Inv (s : State) : Prop where
  /-- the three buffers keep their canonical form -/
  lineWf : Memory.wf s.line = true
  respWf : Memory.wf s.resp = true
  outWf : Memory.wf s.out = true
  /-- the valid parts have values, and lie inside the capacities (R28, R29) -/
  respValid : s.response.isSome = true
  outValid : s.output.isSome = true
  rlenBound : s.rlen ≤ s.cfg.respCap
  olenBound : s.olen ≤ s.cfg.outCap
  /-- no byte of a buffer lies outside it (R36) -/
  respInside : ∀ c ∈ s.resp, c.1 < s.cfg.respCap
  outInside : ∀ c ∈ s.out, c.1 < s.cfg.outCap
  /-- `LEN` and `POS` stay within `LINE_MAX` (R27, R36) -/
  lenBound : s.len ≤ lineMax
  posBound : s.pos ≤ lineMax
  /-- "`Dispatching` is never observable between transactions" (R147) -/
  fsmIdle : s.fsm = .awaitingTerminator
  /-- the frame register is well formed (R23) and zero-filled (R24) -/
  frameWf : s.frame.wf = true
  frameZero : s.frame.zeroFilled
  /-- an effect carries only what its command may (R43) -/
  fxTransmit : ∀ f, s.fx = some (.transmit f) → f.wf = true
  fxSetup : ∀ n, s.fx = some (.setup n) → n ≤ presetMax
  /-- `TruncatedFrame` does not occur through the dispatcher (R130, R215) -/
  errReachable : s.err ≠ .truncatedFrame

end Machine

end Sys2Proof
end

