-- ==== Sys2Proof/Certificates/Slice0/Obligations.lean ====
section
/-! DEFINITION. The statements about the codec, from the numbered rules of spec/. -/

open Sys2Proof
open Sys2Proof.Machine

/-! ### Characters, lines, decoding -/

/-- R74 and R75: the two hexadecimal maps, given in numbers: which 22 bytes have a value and which, and the character of
every nibble. -/
def Obligations.HexMapsFollowTheTables : Prop :=
  (∀ b : Byte, 0x30 ≤ b.toNat → b.toNat ≤ 0x39 → hexVal b = some (BitVec.ofNat 4 (b.toNat - 0x30))) ∧
  (∀ b : Byte, 0x41 ≤ b.toNat → b.toNat ≤ 0x46 → hexVal b = some (BitVec.ofNat 4 (b.toNat - 0x41 + 10))) ∧
  (∀ b : Byte, 0x61 ≤ b.toNat → b.toNat ≤ 0x66 → hexVal b = some (BitVec.ofNat 4 (b.toNat - 0x61 + 10))) ∧
  (∀ b : Byte, ¬ (0x30 ≤ b.toNat ∧ b.toNat ≤ 0x39) → ¬ (0x41 ≤ b.toNat ∧ b.toNat ≤ 0x46) →
    ¬ (0x61 ≤ b.toNat ∧ b.toNat ≤ 0x66) → hexVal b = none) ∧
  (∀ n : Nibble, n.toNat ≤ 9 → hexChar n = BitVec.ofNat 8 (0x30 + n.toNat)) ∧
  (∀ n : Nibble, 10 ≤ n.toNat → hexChar n = BitVec.ofNat 8 (0x41 + (n.toNat - 10)))

/-- R76: a nibble's character has that value, and a character's value has that character up to the case of letters. -/
def Obligations.HexMapsAreInverseUpToCase : Prop :=
  (∀ n : Nibble, hexVal (hexChar n) = some n) ∧
  (∀ (b : Byte) (n : Nibble), hexVal b = some n → hexChar n = upperHex b)

/-- R33, R85, R90: byte 0 selects by all eight bits; the 21 letters have the entries of the table and the other 235 byte
values have none. -/
def Obligations.CommandTableHasTheTwentyOneLetters : Prop :=
  commandTable 0x53#8 = some .setup ∧ commandTable 0x73#8 = some .cfgLowerS ∧ commandTable 0x4F#8 = some .openBus ∧
  commandTable 0x4C#8 = some .listenBus ∧ commandTable 0x43#8 = some .closeBus ∧ commandTable 0x74#8 = some .txStdData ∧
  commandTable 0x54#8 = some .txExtData ∧ commandTable 0x72#8 = some .txStdRemote ∧
  commandTable 0x52#8 = some .txExtRemote ∧ commandTable 0x50#8 = some .pollMode ∧ commandTable 0x41#8 = some .autoMode ∧
  commandTable 0x46#8 = some .readStatus ∧ commandTable 0x58#8 = some .cfgX ∧ commandTable 0x57#8 = some .cfgW ∧
  commandTable 0x4D#8 = some .cfgUpperM ∧ commandTable 0x6D#8 = some .cfgLowerM ∧ commandTable 0x55#8 = some .cfgU ∧
  commandTable 0x56#8 = some .version ∧ commandTable 0x4E#8 = some .deviceIdent ∧ commandTable 0x5A#8 = some .cfgZ ∧
  commandTable 0x51#8 = some .cfgQ ∧
  (∀ c : Byte, c ∉ [0x53#8, 0x73#8, 0x4F#8, 0x4C#8, 0x43#8, 0x74#8, 0x54#8, 0x72#8, 0x52#8, 0x50#8, 0x41#8, 0x46#8, 0x58#8,
    0x57#8, 0x4D#8, 0x6D#8, 0x55#8, 0x56#8, 0x4E#8, 0x5A#8, 0x51#8] → commandTable c = none)

/-- Lines written out from the spec's encodings (R72, spec/95_test_vectors.md) decode to what they stand for: `S6`,
`t12328AB1`, `r1230`, `O`, `F`, `Z9`, `N`; and a raw extended data frame is the form `EMIT.T`. -/
def Obligations.SpecLinesDecode : Prop :=
  decodeLine [0x53#8, 0x36#8, 0x0D#8] = .ok (.setup [0x36#8]) ∧
  decodeLine [0x74#8, 0x31#8, 0x32#8, 0x33#8, 0x32#8, 0x38#8, 0x41#8, 0x42#8, 0x31#8, 0x0D#8] =
    .ok (.txStdData [0x31#8, 0x32#8, 0x33#8, 0x32#8, 0x38#8, 0x41#8, 0x42#8, 0x31#8]) ∧
  decodeLine [0x72#8, 0x31#8, 0x32#8, 0x33#8, 0x30#8, 0x0D#8] = .ok (.txStdRemote [0x31#8, 0x32#8, 0x33#8, 0x30#8]) ∧
  decodeLine [0x4F#8, 0x0D#8] = .ok (.openBus []) ∧
  decodeLine [0x46#8, 0x0D#8] = .ok (.readStatus []) ∧
  decodeLine [0x5A#8, 0x39#8, 0x0D#8] = .ok (.cfgZ [0x39#8]) ∧
  decodeLine [0x4E#8, 0x0D#8] = .ok (.deviceIdent []) ∧
  decodeTrigger (.frame { id := 0x1ABCDE#29, ext := true, rtr := false, dlc := 3#4, data := ⟨1, 2, 3, 0, 0, 0, 0, 0⟩ }) =
    .ok (.emitExtData 0x1ABCDE#29 3#4 ⟨1, 2, 3, 0, 0, 0, 0, 0⟩)

/-- Decode and encode agree: every well-formed instruction, of either port, with every operand, is what the decoder reads
from the trigger that stands for it. -/
def Obligations.DecodeOfEncodeIsTheInstruction : Prop :=
  ∀ (i : Instr) (dev : Word32) (st : List Byte), i.wf = true → decodeTrigger (encodeTrigger i dev st) = .ok i

/-- A chunk that decodes is, byte for byte, the encoding of the well-formed command it decodes to. -/
def Obligations.DecodedLineIsTheEncoding : Prop :=
  ∀ (line : List Byte) (i : Instr), decodeLine line = .ok i → encode i = line ∧ i.wf = true ∧ i.rawFrame = none

/-- A step runs the decoded instruction (R12, R100, R141): a chunk's command with the trigger taken off the schedule and
the collaborator's inputs of this transaction at the ports; a raw frame's form with the trigger taken off. Without a
trigger the run is over and the state is the reset state of the same build (R251, R47: the spec's own decisions D30 and
D21; assumptions 1, 18), from which a step changes nothing (R241). -/
def Obligations.StepRunsTheDecodedInstruction : Prop :=
  (∀ (s : State) (line : List Byte) (dev : Word32) (st : List Byte) (rest : List Trigger) (i : Instr),
    s.schedule = .chunk line dev st :: rest → decodeLine line = .ok i →
    step s = exec i { s with schedule := rest, deviceId := dev, statusBytes := st }) ∧
  (∀ (s : State) (raw : CanFrame) (rest : List Trigger), s.schedule = .frame raw :: rest →
    step s = exec (decodeFramePort raw) { s with schedule := rest }) ∧
  (∀ s : State, s.schedule = [] → step s = .next { State.reset with cfg := s.cfg }) ∧
  step State.reset = .next State.reset

/-! ### The dispatcher -/

/-- R142: a chunk whose last byte is not CR is answered with the one byte CR and reported as `IncompleteLine`; no handler
runs, no effect, whatever its other bytes are. The empty chunk is one of them by R143, the spec's own decision D4 (the
model's assumption 9). -/
def Obligations.IncompleteLineIsAnsweredWithCr : Prop :=
  ∀ (s : State) (line : List Byte) (dev : Word32) (st : List Byte) (rest : List Trigger),
    s.schedule = .chunk line dev st :: rest → line.length ≤ 64 → line.getLast? ≠ some 0x0D#8 →
    step s = .next (afterDispatch { s with schedule := rest, deviceId := dev, statusBytes := st }
      line [] none .incompleteLine s.pos s.frame)

/-- R144 and R90: a complete line whose byte 0 is none of the 21 letters is answered with the one byte CR and reported as
`UnknownCommand`; no handler runs, no effect. -/
def Obligations.UnknownCommandIsAnsweredWithCr : Prop :=
  ∀ (s : State) (c : Byte) (tail : List Byte) (dev : Word32) (st : List Byte) (rest : List Trigger),
    s.schedule = .chunk (c :: tail) dev st :: rest → (c :: tail).length ≤ 64 → (c :: tail).getLast? = some 0x0D#8 →
    c ∉ [0x53#8, 0x73#8, 0x4F#8, 0x4C#8, 0x43#8, 0x74#8, 0x54#8, 0x72#8, 0x52#8, 0x50#8, 0x41#8, 0x46#8, 0x58#8, 0x57#8,
      0x4D#8, 0x6D#8, 0x55#8, 0x56#8, 0x4E#8, 0x5A#8, 0x51#8] →
    step s = .next (afterDispatch { s with schedule := rest, deviceId := dev, statusBytes := st }
      (c :: tail) [] none .unknownCommand s.pos s.frame)

/-- A chunk longer than `LINE_MAX` is refused, whatever it holds. (The spec's own decision, R59: "the model refuses it";
assumption 8.) -/
def Obligations.OverlongChunkIsRefused : Prop :=
  ∀ (s : State) (line : List Byte) (dev : Word32) (st : List Byte) (rest : List Trigger),
    s.schedule = .chunk line dev st :: rest → 64 < line.length → step s = .refused .chunkTooLong

/-- R152: every response is the handler's bytes and one CR; the handler's bytes are none unless byte 0 of a complete line is
`V`, `F` or `N`; and if `VERSION_BYTES` and `STATUS_BYTES` hold neither CR nor BEL, no response holds BEL and its only CR
is the last byte. -/
def Obligations.EveryResponseEndsWithItsOnlyCr : Prop :=
  ∀ (s s' : State) (line : List Byte) (dev : Word32) (st : List Byte) (rest : List Trigger),
    s.schedule = .chunk line dev st :: rest → step s = .next s' →
    ∃ bytes, s'.response = some (bytes ++ [0x0D#8]) ∧ s'.rlen = bytes.length + 1 ∧
      ((line.head? ≠ some 0x56#8 ∧ line.head? ≠ some 0x46#8 ∧ line.head? ≠ some 0x4E#8) ∨ s'.err = .incompleteLine →
        bytes = []) ∧
      ((∀ b ∈ s.cfg.versionBytes ++ st, b ≠ 0x0D#8 ∧ b ≠ 0x07#8) → ∀ b ∈ bytes, b ≠ 0x0D#8 ∧ b ≠ 0x07#8)

/-- R221, R222: a dispatch transaction that reports an error answers the one byte CR, as a good line that returns nothing
does, issues no effect, and leaves `FRAME` as it was. -/
def Obligations.ErrorsAreSilent : Prop :=
  ∀ (s s' : State) (line : List Byte) (dev : Word32) (st : List Byte) (rest : List Trigger),
    s.schedule = .chunk line dev st :: rest → step s = .next s' → s'.err ≠ .noError →
    s'.response = some [0x0D#8] ∧ s'.fx = none ∧ s'.frame = s.frame

/-! ### The commands -/

/-- R161, R162, R163, R180, R181: `O`, `L`, `C`, `P`, `A` each issue their one effect and answer CR, whatever stands
between the letter and the final CR, and change nothing else; their lower-case letters are no commands. (That other bytes
are ignored, R91, and that the handlers answer nothing, R164 and R183, are the spec's own decisions D11 and D9;
assumption 12.) -/
def Obligations.BareCommandsIssueTheirEffect : Prop :=
  (∀ (s : State) (args : List Byte), args.length + 2 ≤ 64 →
    exec (.openBus args) s =
      .next (afterDispatch s (0x4F#8 :: args ++ [0x0D#8]) [] (some .openBus) .noError s.pos s.frame) ∧
    exec (.listenBus args) s =
      .next (afterDispatch s (0x4C#8 :: args ++ [0x0D#8]) [] (some .listen) .noError s.pos s.frame) ∧
    exec (.closeBus args) s =
      .next (afterDispatch s (0x43#8 :: args ++ [0x0D#8]) [] (some .closeBus) .noError s.pos s.frame) ∧
    exec (.pollMode args) s =
      .next (afterDispatch s (0x50#8 :: args ++ [0x0D#8]) [] (some .poll) .noError s.pos s.frame) ∧
    exec (.autoMode args) s =
      .next (afterDispatch s (0x41#8 :: args ++ [0x0D#8]) [] (some .auto) .noError s.pos s.frame)) ∧
  commandTable 0x6F#8 = none ∧ commandTable 0x6C#8 = none ∧ commandTable 0x63#8 = none ∧ commandTable 0x70#8 = none ∧
  commandTable 0x61#8 = none

/-- R160: an `S` line whose character after the letter is `0` to `8` issues `FX_SETUP` of that number; any other, the CR
itself among them, is `MalformedFrame` without an effect (the spec's own decision D10; assumption 10). Bytes after that
character are ignored, and `POS` is 1. -/
def Obligations.SetupTakesOnePresetDigit : Prop :=
  (∀ (s : State) (c : Byte) (tail : List Byte) (n : Nibble), (c :: tail).length + 2 ≤ 64 →
    hexVal c = some n → n.toNat ≤ 8 →
    exec (.setup (c :: tail)) s =
      .next (afterDispatch s (0x53#8 :: (c :: tail) ++ [0x0D#8]) [] (some (.setup n)) .noError 1 s.frame)) ∧
  (∀ (s : State) (args : List Byte), args.length + 2 ≤ 64 →
    (∀ n, args.head?.bind hexVal = some n → 8 < n.toNat) →
    exec (.setup args) s =
      .next (afterDispatch s (0x53#8 :: args ++ [0x0D#8]) [] none .malformedFrame 1 s.frame))

/-- R182: `F` asks the collaborator and answers its `STATUS_BYTES`, any bytes of any length up to `RESP_CAP - 1`, and CR.
(`statusBytes` is an input: the statement holds for every value of it. The form of the answer is the spec's own decision
D16, assumption 14; that other bytes of the line are ignored is D11, R91, assumption 12.) -/
def Obligations.ReadStatusAnswersTheStatusBytes : Prop :=
  ∀ (s : State) (args : List Byte), args.length + 2 ≤ 64 → s.statusBytes.length + 1 ≤ s.cfg.respCap →
    exec (.readStatus args) s =
      .next (afterDispatch s (0x46#8 :: args ++ [0x0D#8]) s.statusBytes (some .status) .noError s.pos s.frame)

/-- Status bytes that leave no room for the terminator are refused, not cut short. (The model's choice on a premise of R59
and R182; assumption 8.) -/
def Obligations.OverlongStatusIsRefused : Prop :=
  ∀ (s : State) (args : List Byte), args.length + 2 ≤ 64 → s.cfg.respCap ≤ s.statusBytes.length →
    exec (.readStatus args) s = .refused .responseFull

/-- R200: `V` answers the build's `VERSION_BYTES` and CR, and issues no effect. (For every configuration:
that the string is an open parameter is the spec's own decision D15, and at reset it is a free value, assumption 4. That
other bytes of the line are ignored is D11, R91, assumption 12. That no premise on the capacity is needed rests on the
model's way of giving `RESP_CAP`, assumption 5.) -/
def Obligations.VersionAnswersTheVersionBytes : Prop :=
  (∀ (s : State) (args : List Byte), args.length + 2 ≤ 64 →
    exec (.version args) s =
      .next (afterDispatch s (0x56#8 :: args ++ [0x0D#8]) s.cfg.versionBytes none .noError s.pos s.frame)) ∧
  commandTable 0x76#8 = none

/-- R201: `N` asks for `DEVICE_ID` and answers its eight nibbles as upper-case characters, bits 31:28 first, and CR.
(The form is the spec's own decision D14; assumption 14.) -/
def Obligations.DeviceIdentAnswersEightDigits : Prop :=
  (∀ (s : State) (args : List Byte), args.length + 2 ≤ 64 →
    exec (.deviceIdent args) s =
      .next (afterDispatch s (0x4E#8 :: args ++ [0x0D#8])
        [hexChar (s.deviceId.extractLsb' 28 4), hexChar (s.deviceId.extractLsb' 24 4),
         hexChar (s.deviceId.extractLsb' 20 4), hexChar (s.deviceId.extractLsb' 16 4),
         hexChar (s.deviceId.extractLsb' 12 4), hexChar (s.deviceId.extractLsb' 8 4),
         hexChar (s.deviceId.extractLsb' 4 4), hexChar (s.deviceId.extractLsb' 0 4)]
        (some .devId) .noError s.pos s.frame)) ∧
  commandTable 0x6E#8 = none

/-- R198 and R190 to R197: the eight configuration commands hand the letter and the bytes between it and the final CR to
the collaborator, uninterpreted, and answer CR; `x`, `w`, `u`, `z`, `q` are no commands. (The spec's own decisions D12, D23;
assumptions 12, 13.) -/
def Obligations.ConfigCommandsHandOverTheirBytes : Prop :=
  (∀ (s : State) (args : List Byte), args.length + 2 ≤ 64 →
    exec (.cfgLowerS args) s =
      .next (afterDispatch s (0x73#8 :: args ++ [0x0D#8]) [] (some (.config 0x73#8 args)) .noError s.pos s.frame) ∧
    exec (.cfgX args) s =
      .next (afterDispatch s (0x58#8 :: args ++ [0x0D#8]) [] (some (.config 0x58#8 args)) .noError s.pos s.frame) ∧
    exec (.cfgW args) s =
      .next (afterDispatch s (0x57#8 :: args ++ [0x0D#8]) [] (some (.config 0x57#8 args)) .noError s.pos s.frame) ∧
    exec (.cfgUpperM args) s =
      .next (afterDispatch s (0x4D#8 :: args ++ [0x0D#8]) [] (some (.config 0x4D#8 args)) .noError s.pos s.frame) ∧
    exec (.cfgLowerM args) s =
      .next (afterDispatch s (0x6D#8 :: args ++ [0x0D#8]) [] (some (.config 0x6D#8 args)) .noError s.pos s.frame) ∧
    exec (.cfgU args) s =
      .next (afterDispatch s (0x55#8 :: args ++ [0x0D#8]) [] (some (.config 0x55#8 args)) .noError s.pos s.frame) ∧
    exec (.cfgZ args) s =
      .next (afterDispatch s (0x5A#8 :: args ++ [0x0D#8]) [] (some (.config 0x5A#8 args)) .noError s.pos s.frame) ∧
    exec (.cfgQ args) s =
      .next (afterDispatch s (0x51#8 :: args ++ [0x0D#8]) [] (some (.config 0x51#8 args)) .noError s.pos s.frame)) ∧
  commandTable 0x78#8 = none ∧ commandTable 0x77#8 = none ∧ commandTable 0x75#8 = none ∧ commandTable 0x7A#8 = none ∧
  commandTable 0x71#8 = none

/-- R170 with R77, R79, R80: a `t` or `T` line with `n` hexadecimal identifier characters (3 or 8) in range, a DLC
character of 0 to 8, and that many pairs, whatever follows, transmits the frame they spell, once, and answers CR. (Data bytes
past the DLC are zero by the spec's own decision D8; assumption 11.) -/
def Obligations.DataFrameLinesAreTransmitted : Prop :=
  ∀ (s : State) (ids data tail : List Byte) (l : Byte) (vs : List Nibble) (dlc : Nibble) (ds : List Byte),
    (ids ++ l :: (data ++ tail)).length + 2 ≤ 64 →
    hexVals ids = some vs → hexVal l = some dlc → dlc.toNat ≤ 8 → hexBytes data = some ds → ds.length = dlc.toNat →
    (ids.length = 3 → (identValue vs).toNat ≤ 0x7FF →
      let f : CanFrame :=
        { id := (identValue vs).setWidth 29, ext := false, rtr := false, dlc, data := Data8.ofList ds }
      exec (.txStdData (ids ++ l :: (data ++ tail))) s =
        .next (afterDispatch s (0x74#8 :: (ids ++ l :: (data ++ tail)) ++ [0x0D#8]) [] (some (.transmit f)) .noError
          (5 + data.length) f)) ∧
    (ids.length = 8 → (identValue vs).toNat ≤ 0x1FFFFFFF →
      let f : CanFrame :=
        { id := (identValue vs).setWidth 29, ext := true, rtr := false, dlc, data := Data8.ofList ds }
      exec (.txExtData (ids ++ l :: (data ++ tail))) s =
        .next (afterDispatch s (0x54#8 :: (ids ++ l :: (data ++ tail)) ++ [0x0D#8]) [] (some (.transmit f)) .noError
          (10 + data.length) f))

/-- R173, R174: an `r` or `R` line with its identifier in range and a DLC character of 0 to 8 transmits the remote frame
with that DLC and no data, whatever follows, and answers CR. (No data: eight zero bytes, by D8; assumption 11.) -/
def Obligations.RemoteFrameLinesAreTransmitted : Prop :=
  ∀ (s : State) (ids tail : List Byte) (l : Byte) (vs : List Nibble) (dlc : Nibble),
    (ids ++ l :: tail).length + 2 ≤ 64 →
    hexVals ids = some vs → hexVal l = some dlc → dlc.toNat ≤ 8 →
    (ids.length = 3 → (identValue vs).toNat ≤ 0x7FF →
      let f : CanFrame :=
        { id := (identValue vs).setWidth 29, ext := false, rtr := true, dlc, data := ⟨0, 0, 0, 0, 0, 0, 0, 0⟩ }
      exec (.txStdRemote (ids ++ l :: tail)) s =
        .next (afterDispatch s (0x72#8 :: (ids ++ l :: tail) ++ [0x0D#8]) [] (some (.transmit f)) .noError 5 f)) ∧
    (ids.length = 8 → (identValue vs).toNat ≤ 0x1FFFFFFF →
      let f : CanFrame :=
        { id := (identValue vs).setWidth 29, ext := true, rtr := true, dlc, data := ⟨0, 0, 0, 0, 0, 0, 0, 0⟩ }
      exec (.txExtRemote (ids ++ l :: tail)) s =
        .next (afterDispatch s (0x52#8 :: (ids ++ l :: tail) ++ [0x0D#8]) [] (some (.transmit f)) .noError 10 f))

/-- R170, R130: a frame command always completes and answers CR; either it reports nothing and transmits exactly what it
wrote into `FRAME`, a well-formed frame, or it reports `MalformedFrame`, issues nothing and leaves `FRAME` alone. (That the
kind is never `TruncatedFrame` follows from R130, the spec's own decision D5; assumption 10.) -/
def Obligations.FrameCommandsSendOrSwallow : Prop :=
  ∀ (s : State) (c : Byte) (mk : List Byte → Instr) (ext rtr : Bool) (args : List Byte),
    commandTable c = some mk → frameKind c = some (ext, rtr) → args.length + 2 ≤ 64 →
    (∃ pos f, f.wf = true ∧ f.ext = ext ∧ f.rtr = rtr ∧
      exec (mk args) s =
        .next (afterDispatch s (c :: args ++ [0x0D#8]) [] (some (.transmit f)) .noError pos f)) ∨
    (∃ pos, exec (mk args) s =
        .next (afterDispatch s (c :: args ++ [0x0D#8]) [] none .malformedFrame pos s.frame))

/-- R130, R131, R214 (b), (c): the first byte after the letter that is not hexadecimal, within the identifier or at the DLC
position, ends the line as `MalformedFrame` with `POS` at it. The line's own CR is such a byte, so a short line is one: that
is the spec's own decision D5 (assumption 10). -/
def Obligations.BadIdentifierOrDlcCharacterIsMalformed : Prop :=
  ∀ (s : State) (c : Byte) (mk : List Byte → Instr) (ext rtr : Bool) (args good rest : List Byte) (vs : List Nibble)
    (b : Byte),
    commandTable c = some mk → frameKind c = some (ext, rtr) → args.length + 2 ≤ 64 →
    args ++ [0x0D#8] = good ++ b :: rest → hexVals good = some vs → hexVal b = none → good.length ≤ idNibbles ext →
    exec (mk args) s =
      .next (afterDispatch s (c :: args ++ [0x0D#8]) [] none .malformedFrame (good.length + 1) s.frame)

/-- R124, R131, R214 (d): a hexadecimal DLC character above 8 is `MalformedFrame` at once, for remote frames too, before
the data and before the identifier's range, with `POS` just after it. (That order is the spec's own decision D5 and D7, R219;
that remote frames are no exception is its resolution C5. Assumption 10.) -/
def Obligations.DlcAboveEightIsMalformed : Prop :=
  ∀ (s : State) (c : Byte) (mk : List Byte → Instr) (ext rtr : Bool) (ids rest : List Byte) (vs : List Nibble) (l : Byte)
    (dlc : Nibble),
    commandTable c = some mk → frameKind c = some (ext, rtr) → (ids ++ l :: rest).length + 2 ≤ 64 →
    ids.length = idNibbles ext → hexVals ids = some vs → hexVal l = some dlc → 8 < dlc.toNat →
    exec (mk (ids ++ l :: rest)) s =
      .next (afterDispatch s (c :: (ids ++ l :: rest) ++ [0x0D#8]) [] none .malformedFrame (ids.length + 2) s.frame)

/-- R125, R131, R214 (e): in a data frame, the first byte of the data field that is not hexadecimal, the line's own CR among
them, ends the line as `MalformedFrame` with `POS` at it. (The spec's own decision D6; assumption 10.) -/
def Obligations.BadDataCharacterIsMalformed : Prop :=
  ∀ (s : State) (c : Byte) (mk : List Byte → Instr) (ext : Bool) (args ids good rest : List Byte)
    (vs ws : List Nibble) (l b : Byte) (dlc : Nibble),
    commandTable c = some mk → frameKind c = some (ext, false) → args.length + 2 ≤ 64 →
    args ++ [0x0D#8] = ids ++ l :: (good ++ b :: rest) → ids.length = idNibbles ext → hexVals ids = some vs →
    hexVal l = some dlc → dlc.toNat ≤ 8 → hexVals good = some ws → hexVal b = none → good.length < 2 * dlc.toNat →
    exec (mk args) s =
      .next (afterDispatch s (c :: args ++ [0x0D#8]) [] none .malformedFrame (ids.length + 2 + good.length) s.frame)

/-- R128, R131, R214 (f): an identifier above 0x7FF (standard) or 0x1FFFFFFF (extended) is `MalformedFrame` once every field
has parsed, never cut to fit, with `POS` after the last field. (That the check comes last is the spec's own decision D7;
assumption 10.) -/
def Obligations.IdentifierOutOfRangeIsMalformed : Prop :=
  ∀ (s : State) (c : Byte) (mk : List Byte → Instr) (ext rtr : Bool) (ids data tail : List Byte) (vs : List Nibble)
    (l : Byte) (dlc : Nibble) (ds : List Byte),
    commandTable c = some mk → frameKind c = some (ext, rtr) → (ids ++ l :: (data ++ tail)).length + 2 ≤ 64 →
    ids.length = idNibbles ext → hexVals ids = some vs → hexVal l = some dlc → dlc.toNat ≤ 8 →
    hexBytes data = some ds → ds.length = (if rtr then 0 else dlc.toNat) →
    (if ext then 0x1FFFFFFF else 0x7FF) < (identValue vs).toNat →
    exec (mk (ids ++ l :: (data ++ tail))) s =
      .next (afterDispatch s (c :: (ids ++ l :: (data ++ tail)) ++ [0x0D#8]) [] none .malformedFrame
        (ids.length + 2 + data.length) s.frame)

/-- Every command with its encoding completes on every state whose status bytes fit (R145: "A handler always returns";
R153). -/
def Obligations.EveryWellFormedInstructionCompletes : Prop :=
  ∀ (i : Instr) (s : State), i.wf = true → s.statusBytes.length + 1 ≤ s.cfg.respCap → ∃ s', exec i s = .next s'

/-! ### `Decode` on its own, `ConstructFrame`, the cursor -/

/-- R120, R130, R215 (spec/95_test_vectors.md D'): applied to a list that ends before its fields do, `Decode` raises
`TruncatedFrame` with `POS` at the end of the list and `FRAME` unwritten; a leading character that is none of the four
is `MalformedFrame` at 0 (R121). -/
def Obligations.DecodeAloneReportsTruncation : Prop :=
  (∀ (s : State), s.err = .noError →
    decodeFrame (s.holding []) = .raised (((s.holding []).withPos 0).withErr .truncatedFrame)) ∧
  (∀ (s : State) (c : Byte) (rest : List Byte), s.err = .noError → frameKind c = none →
    decodeFrame (s.holding (c :: rest)) = .raised (((s.holding (c :: rest)).withPos 0).withErr .malformedFrame)) ∧
  (∀ (s : State) (c : Byte) (ext rtr : Bool) (ids : List Byte) (vs : List Nibble), s.err = .noError →
    frameKind c = some (ext, rtr) → hexVals ids = some vs → ids.length ≤ idNibbles ext →
    decodeFrame (s.holding (c :: ids)) =
      .raised (((s.holding (c :: ids)).withPos (ids.length + 1)).withErr .truncatedFrame)) ∧
  (∀ (s : State) (c l : Byte) (ext : Bool) (ids data : List Byte) (vs ws : List Nibble) (dlc : Nibble),
    s.err = .noError → frameKind c = some (ext, false) → hexVals ids = some vs → ids.length = idNibbles ext →
    hexVal l = some dlc → dlc.toNat ≤ 8 → hexVals data = some ws → data.length < 2 * dlc.toNat →
    decodeFrame (s.holding (c :: (ids ++ l :: data))) =
      .raised (((s.holding (c :: (ids ++ l :: data))).withPos (ids.length + 2 + data.length)).withErr .truncatedFrame))

/-- R24: `ConstructFrame` raises `MalformedFrame` and leaves `FRAME` unwritten when the DLC is above 8 or the identifier is
out of range for its kind; otherwise it writes the whole register, data bytes at `dlc` and above (all of them for a
remote frame) as zero. (The zeros are the spec's own decision D8, assumption 11; the error kind of an identifier out of
range is its decision D7, assumption 10.) -/
def Obligations.ConstructFrameChecksThenWritesWhole : Prop :=
  (∀ (s : State) (id : Word32) (ext rtr : Bool) (dlc : Nibble) (data : Data8), s.err = .noError →
    8 < dlc.toNat ∨ (ext = false ∧ 0x7FF < id.toNat) ∨ (ext = true ∧ 0x1FFFFFFF < id.toNat) →
    constructFrame id ext rtr dlc data s = .raised { s with err := .malformedFrame }) ∧
  (∀ (s : State) (id : Word32) (ext rtr : Bool) (dlc : Nibble) (data : Data8),
    dlc.toNat ≤ 8 → (ext = false → id.toNat ≤ 0x7FF) → (ext = true → id.toNat ≤ 0x1FFFFFFF) →
    ∃ f : CanFrame, constructFrame id ext rtr dlc data s = .ok () { s with frame := f } ∧
      f.id.toNat = id.toNat ∧ f.ext = ext ∧ f.rtr = rtr ∧ f.dlc = dlc ∧
      ∀ i, i < 8 → f.data.toList[i]? = some (if rtr = false ∧ i < dlc.toNat then data.toList.getD i 0 else 0))

/-- R122: `NibbleAtPos` raises `TruncatedFrame` at or past `LEN`, `MalformedFrame` on a byte that is not hexadecimal, and
otherwise answers its value and moves `POS` by one; when it raises, `POS` stays. -/
def Obligations.NibbleAtPosChecksPresenceThenValue : Prop :=
  ∀ (s : State) (line : List Byte), s.err = .noError →
    (line.length ≤ s.pos → nibbleAtPos (s.holding line) = .raised ((s.holding line).withErr .truncatedFrame)) ∧
    (∀ b, (line)[s.pos]? = some b → hexVal b = none →
      nibbleAtPos (s.holding line) = .raised ((s.holding line).withErr .malformedFrame)) ∧
    (∀ b v, (line)[s.pos]? = some b → hexVal b = some v →
      nibbleAtPos (s.holding line) = .ok v ((s.holding line).withPos (s.pos + 1)))

/-- R57, R58: each append writes the one byte at its cursor and moves the cursor by one, every other byte of the buffer
and every other register as before. (That the model refuses it at the capacity, where R57 and R58 `require` that this does
not happen, is the model's own choice; assumption 8.) -/
def Obligations.AppendsWriteOneByteAtTheCursor : Prop :=
  (∀ (s : State) (b : Byte), s.rlen < s.cfg.respCap →
    ∃ m, respAppend b s = .next { s with resp := m, rlen := s.rlen + 1 } ∧ m.read s.rlen = some b ∧
      ∀ a, a ≠ s.rlen → m.read a = s.resp.read a) ∧
  (∀ (s : State) (b : Byte), s.cfg.respCap ≤ s.rlen → respAppend b s = .refused .responseFull) ∧
  (∀ (s : State) (b : Byte), s.olen < s.cfg.outCap →
    ∃ m, outAppend b s = .next { s with out := m, olen := s.olen + 1 } ∧ m.read s.olen = some b ∧
      ∀ a, a ≠ s.olen → m.read a = s.out.read a) ∧
  (∀ (s : State) (b : Byte), s.cfg.outCap ≤ s.olen → outAppend b s = .refused .outputFull)

/-- R219, R222, R30: a `raise` writes `ERR` if it was `None` and changes nothing else; a second one changes nothing. -/
def Obligations.FirstRaiseWins : Prop :=
  (∀ (s : State) (k : ErrKind), s.err = .noError → raise k s = { s with err := k }) ∧
  (∀ (s : State) (k j : ErrKind), j ≠ .noError → raise k (raise j s) = raise j s)

/-! ### The encoder -/

/-- R110 to R113, R100, R106: a well-formed raw frame is written into `FRAME`, data that is not meaningful as zero, its
line stands in `OUT` from 0 with `OLEN` its length, `ERR` is `None`, and nothing else changes. (The zeros are
the spec's own decision D8; assumption 11.) -/
def Obligations.WellFormedFramesAreEmitted : Prop :=
  (∀ (s : State) (id : BitVec 29) (dlc : Nibble) (data : Data8), dlc.toNat ≤ 8 → id.toNat ≤ 0x7FF →
    exec (.emitStdData id dlc data) s =
      .next { s with
        err := .noError
        frame := { id, ext := false, rtr := false, dlc, data := data.keep dlc.toNat }
        out := s.out.writeAll 0 (encode (.emitStdData id dlc data))
        olen := 6 + 2 * dlc.toNat }) ∧
  (∀ (s : State) (id : BitVec 29) (dlc : Nibble) (data : Data8), dlc.toNat ≤ 8 →
    exec (.emitExtData id dlc data) s =
      .next { s with
        err := .noError
        frame := { id, ext := true, rtr := false, dlc, data := data.keep dlc.toNat }
        out := s.out.writeAll 0 (encode (.emitExtData id dlc data))
        olen := 11 + 2 * dlc.toNat }) ∧
  (∀ (s : State) (id : BitVec 29) (dlc : Nibble) (data : Data8), dlc.toNat ≤ 8 → id.toNat ≤ 0x7FF →
    exec (.emitStdRemote id dlc data) s =
      .next { s with
        err := .noError
        frame := { id, ext := false, rtr := true, dlc, data := ⟨0, 0, 0, 0, 0, 0, 0, 0⟩ }
        out := s.out.writeAll 0 (encode (.emitStdRemote id dlc data))
        olen := 6 }) ∧
  (∀ (s : State) (id : BitVec 29) (dlc : Nibble) (data : Data8), dlc.toNat ≤ 8 →
    exec (.emitExtRemote id dlc data) s =
      .next { s with
        err := .noError
        frame := { id, ext := true, rtr := true, dlc, data := ⟨0, 0, 0, 0, 0, 0, 0, 0⟩ }
        out := s.out.writeAll 0 (encode (.emitExtRemote id dlc data))
        olen := 11 })

/-- R109: an ill-formed raw frame is reported as `MalformedFrame` and nothing is emitted: `OLEN` is 0, `OUT` and `FRAME` are
as before. (The spec's own decision D19; assumption 16.) -/
def Obligations.IllFormedFramesEmitNothing : Prop :=
  ∀ (s : State) (raw : CanFrame), 8 < raw.dlc.toNat ∨ (raw.ext = false ∧ 0x7FF < raw.id.toNat) →
    exec (decodeFramePort raw) s = .next { s with err := .malformedFrame, olen := 0 }

/-- R105, R108, R95: an emitted line has the stated length, begins with its leading character, ends with its only CR, and
between them holds only digits and upper-case hexadecimal letters. -/
def Obligations.EmittedLinesFollowTheGrammar : Prop :=
  ∀ f : CanFrame, f.wf = true →
    ∃ mid, encode (decodeFramePort f) = leadChar f.ext f.rtr :: (mid ++ [0x0D#8]) ∧
      mid.length = idNibbles f.ext + 1 + (if f.rtr then 0 else 2 * f.dlc.toNat) ∧
      ∀ b ∈ mid, (hexVal b).isSome = true ∧ upperHex b = b ∧ b ≠ 0x0D#8

/-- R52, R101 to R104: where each field of an emitted line stands and what it holds, in numbers: byte 0 the leading
character, then the identifier's nibbles from the most significant on, the DLC, for a data frame the high and low nibble of
each of the first `dlc` bytes, then CR and nothing more. -/
def Obligations.EmittedBytesAreTheFields : Prop :=
  ∀ f : CanFrame, f.wf = true →
    let line := encode (decodeFramePort f)
    let n := if f.ext then 8 else 3
    (line)[0]? = some (if f.rtr then (if f.ext then 0x52#8 else 0x72#8) else (if f.ext then 0x54#8 else 0x74#8)) ∧
    (∀ k, k < n → (line)[n - k]? = some (hexChar (BitVec.ofNat 4 (f.id.toNat / 16 ^ k % 16)))) ∧
    (line)[n + 1]? = some (hexChar f.dlc) ∧
    (f.rtr = false → ∀ i b, i < f.dlc.toNat → f.data.toList[i]? = some b →
      (line)[n + 2 + 2 * i]? = some (hexChar (BitVec.ofNat 4 (b.toNat / 16))) ∧
      (line)[n + 3 + 2 * i]? = some (hexChar (BitVec.ofNat 4 (b.toNat % 16)))) ∧
    line.length = n + 3 + (if f.rtr then 0 else 2 * f.dlc.toNat) ∧ (line)[line.length - 1]? = some 0x0D#8

/-- R115: well-formed frames that encode to the same line are equal as frames. -/
def Obligations.EncodingIsInjectiveOnFrames : Prop :=
  ∀ f g : CanFrame, f.wf = true → g.wf = true → encode (decodeFramePort f) = encode (decodeFramePort g) →
    f.sameFrame g

/-- R132, first direction, over the whole machine: whatever the state, a well-formed raw frame at the encode port leaves a
line, and that line given back as a chunk is answered with CR and transmits a frame equal as frames to it, all of the
line but its CR being consumed. -/
def Obligations.EncodedFrameComesBackAsTransmit : Prop :=
  ∀ (s : State) (f : CanFrame) (dev : Word32) (st : List Byte), f.wf = true →
    ∃ s1 line s2 g, step { s with schedule := [.frame f] } = .next s1 ∧ s1.output = some line ∧
      step { s1 with schedule := [.chunk line dev st] } = .next s2 ∧
      s2.fx = some (.transmit g) ∧ g.sameFrame f ∧ s2.frame = g ∧ s2.err = .noError ∧
      s2.response = some [0x0D#8] ∧ s2.pos + 1 = line.length

/-- R132, other direction: whenever `Decode` succeeds on a list, the encoding of the frame it wrote is the part it consumed
with lower-case hexadecimal letters made upper case, and CR. -/
def Obligations.DecodedLineIsReEncodedUpToCase : Prop :=
  ∀ (s s' : State) (line : List Byte), decodeFrame (s.holding line) = .ok () s' →
    s'.frame.wf = true ∧ encode (decodeFramePort s'.frame) = (line.take s'.pos).map upperHex ++ [0x0D#8]

/-! ### Frames of the two ports -/

/-- A dispatch transaction, of whatever command, leaves the build, the schedule, the inputs and the encode port's `OUT` and
`OLEN` alone; it latches its line, writes `RESP` only below `RLEN`, ends in `AwaitingTerminator` (R147), and writes
`FRAME` only when it transmits it. -/
def Obligations.CommandsLeaveTheEncodePortAlone : Prop :=
  ∀ (i : Instr) (s s' : State), i.rawFrame = none → exec i s = .next s' →
    s'.cfg = s.cfg ∧ s'.schedule = s.schedule ∧ s'.deviceId = s.deviceId ∧ s'.statusBytes = s.statusBytes ∧
    s'.out = s.out ∧ s'.olen = s.olen ∧ s'.fsm = .awaitingTerminator ∧
    s'.line = Memory.ofBytes (encode i) ∧ s'.len = (encode i).length ∧
    (∀ a, s'.rlen ≤ a → s'.resp.read a = s.resp.read a) ∧
    (s'.frame = s.frame ∨ s'.fx = some (.transmit s'.frame))

/-- An encode transaction, of whatever form, leaves the dispatch port alone (R100: it "does not read or write `FSM`, `RESP`,
`RLEN`, `POS`, `FX`, `LINE`, and issues no effect"), and writes `OUT` only below `OLEN`. -/
def Obligations.EmittedFormsLeaveTheDispatchPortAlone : Prop :=
  ∀ (i : Instr) (raw : CanFrame) (s s' : State), i.rawFrame = some raw → exec i s = .next s' →
    s'.cfg = s.cfg ∧ s'.schedule = s.schedule ∧ s'.deviceId = s.deviceId ∧ s'.statusBytes = s.statusBytes ∧
    s'.line = s.line ∧ s'.len = s.len ∧ s'.resp = s.resp ∧ s'.rlen = s.rlen ∧ s'.pos = s.pos ∧ s'.fsm = s.fsm ∧
    s'.fx = s.fx ∧ (∀ a, s'.olen ≤ a → s'.out.read a = s.out.read a)

/-! ### The whole machine -/

/-- What reset leaves, where R240 and R47 say it (the spec's own decision D21). -/
def Obligations.ResetLeavesTheStatedValues : Prop :=
  commandRows.length = 21 ∧ State.reset.fsm = .awaitingTerminator ∧ State.reset.err = .noError ∧
  State.reset.fx = none ∧ State.reset.rlen = 0 ∧ State.reset.olen = 0

/-- The invariant holds at reset. (`POS`, `FRAME` and the empty buffers at reset are the model's choices, assumptions 6
and 7.) -/
def Obligations.ResetMeetsTheInvariant : Prop := Inv State.reset

/-- From every state that meets it, every step keeps the invariant: buffers canonical and inside their capacities, valid
parts readable, cursors bounded, `FSM` idle, `FRAME` well formed and zero-filled, effects within their ranges, and never
`TruncatedFrame`. -/
def Obligations.EveryStepKeepsTheInvariant : Prop :=
  ∀ s s' : State, Inv s → step s = .next s' → Inv s'

/-- R153, R249: from every state, a trigger the environment may fire is answered with a next state in that one step, and is
then gone from the schedule; the machine never stops on it. -/
def Obligations.LegalTriggersAlwaysComplete : Prop :=
  ∀ (s : State) (t : Trigger) (rest : List Trigger), s.schedule = t :: rest → Trigger.legal s.cfg t →
    ∃ s', step s = .next s' ∧ s'.schedule = rest ∧ s'.cfg = s.cfg

/-- R153, R251: a run over any schedule of legal triggers never stops, and shows one observation for each trigger. -/
def Obligations.LegalRunsNeverStop : Prop :=
  ∀ (ts : List Trigger) (s : State), (∀ t ∈ ts, Trigger.legal s.cfg t) →
    ∃ os, observeRun ts s = some os ∧ os.length = ts.length

/-- R20, R35, R60 (d): no state survives a transaction. From every state, whatever ran before, a run shows for each trigger
exactly what that trigger shows alone after reset on the same build. (What is observed is R251, the spec's own decision D30;
that the registers keep their last values between transactions is the model's, assumption 18.) -/
def Obligations.RunsHaveNoMemory : Prop :=
  ∀ (ts : List Trigger) (s : State), observeRun ts s = ts.mapM (observeAlone s.cfg)

/-- R60 (d): any two transactions commute, of either port: in the other order each shows what it showed. -/
def Obligations.NeighbouringTransactionsCommute : Prop :=
  ∀ (s : State) (a b : Trigger) (x y : Observation),
    observeRun [a, b] s = some [x, y] → observeRun [b, a] s = some [y, x]

/-- R151: the same chunk with the same inputs gives the same response, effect and error every time, whatever ran in
between. -/
def Obligations.DispatchIsIdempotent : Prop :=
  ∀ (s : State) (t : Trigger) (between : List Trigger) (x y : Observation) (mid : List Observation),
    mid.length = between.length → observeRun (t :: (between ++ [t])) s = some (x :: (mid ++ [y])) → x = y

/-- No step raises the model's one fault, and no step overfills a buffer but an `F` whose status bytes are too long: the
two stops left are the chunk too long and that one (R59, R153). -/
def Obligations.StepsStopOnlyOnIllegalTriggers : Prop :=
  ∀ s : State,
    (∀ f, step s ≠ .fault f) ∧
    (∀ r, step s = .refused r →
      ∃ line dev st rest, s.schedule = .chunk line dev st :: rest ∧
        ((r = .chunkTooLong ∧ 64 < line.length) ∨
         (r = .responseFull ∧ line.head? = some 0x46#8 ∧ s.cfg.respCap ≤ st.length)))

/-- R251, R47: whatever the state it starts in, a run of legal triggers comes to its end, and every run that does ends in the
reset state of its build: no effect, no error, both cursors 0, `FSM` waiting, no output left. (The spec's own decisions D21
and D30; what stands in `POS`, `FRAME`, the inputs and the buffers there is the model's choice, assumptions 2, 6, 7, and
that the step that finds no trigger is the end of the run is assumptions 1 and 18.) -/
def Obligations.RunsEndInTheResetState : Prop :=
  ∀ (ts : List Trigger) (s : State),
    ((∀ t ∈ ts, Trigger.legal s.cfg t) → ∃ f, finalState ts s = some f) ∧
    (∀ f, finalState ts s = some f →
      f = { State.reset with cfg := s.cfg } ∧ f.fx = none ∧ f.err = .noError ∧ f.rlen = 0 ∧ f.olen = 0 ∧
        f.fsm = .awaitingTerminator ∧ f.response = some [] ∧ f.output = some [])

/-- R12, R153, R251 for infinite runs: on every infinite sequence of legal triggers, from every state, the block never stops,
and its transaction of every index shows exactly what its trigger shows alone after reset on the same build (R20). (What is
observed is the spec's own decision D30; that the sequence stands outside the state is assumption 1.) -/
def Obligations.InfiniteRunsNeverStop : Prop :=
  ∀ (ts : Nat → Trigger) (s : State), (∀ n, Trigger.legal s.cfg (ts n)) →
    ∀ n, (∃ u, stateAt ts s n = some u ∧ u.cfg = s.cfg) ∧
      ∃ o, observeAt ts s n = some o ∧ observeAlone s.cfg (ts n) = some o

/-- R12, R251: a finite run over the first `n` triggers of an infinite one, legal or not, shows its first `n` observations,
and stops just where it does: the two definitions of a run are one. (Assumption 1, decision D30.) -/
def Obligations.FiniteRunsAreTheBeginningsOfInfiniteOnes : Prop :=
  ∀ (ts : Nat → Trigger) (s : State) (n : Nat),
    observeRun ((List.range n).map ts) s = (List.range n).mapM (observeAt ts s)
end

