-- ==== Sys2Proof/Laws/Decode.lean ====
section
/-! SUPPORT. Laws of the hexadecimal maps, the Command Table and the decoder. -/

namespace Sys2Proof

/-! ### Hexadecimal characters -/

@[simp] theorem hexVal_hexChar (n : Nibble) : hexVal (hexChar n) = some n := by
  revert n; decide

@[simp] theorem hexVal_cr : hexVal cr = none := by decide

theorem hexChar_ne_cr (n : Nibble) : hexChar n ≠ cr := by
  revert n; decide

@[simp] theorem hexDigits_length (n : Nat) (v : Word32) : (hexDigits n v).length = n := by
  induction n with
  | zero => rfl
  | succ n ih => simp [hexDigits, ih]

@[simp] theorem byteDigits_length (b : Byte) : (byteDigits b).length = 2 := rfl

@[simp] theorem flatMap_byteDigits_length (bs : List Byte) : (bs.flatMap byteDigits).length = 2 * bs.length := by
  induction bs with
  | nil => rfl
  | cons b bs ih => simp only [List.flatMap_cons, List.length_append, List.length_cons, byteDigits_length, ih]; omega

@[simp] theorem byteOfNibbles_digits (b : Byte) : byteOfNibbles (b.extractLsb' 4 4) (b.extractLsb' 0 4) = b := by
  revert b; decide

namespace Data8

@[simp] theorem toList_length (d : Data8) : d.toList.length = 8 := rfl

@[simp] theorem ofList_toList (d : Data8) : ofList d.toList = d := rfl

theorem keep_keep (n : Nat) (d : Data8) : (d.keep n).keep n = d.keep n := by
  rcases Nat.lt_or_ge n 8 with h | h
  · interval_cases n <;> rfl
  · simp only [keep, List.take_of_length_le (show d.toList.length ≤ n from h), ofList_toList]

/-- Keeping `n` bytes keeps exactly those. -/
theorem take_keep (n : Nat) (d : Data8) (h : n ≤ 8) : (d.keep n).toList.take n = d.toList.take n := by
  interval_cases n <;> rfl

/-- The bytes there are, read back. -/
theorem take_ofList (l : List Byte) (h : l.length ≤ 8) : (ofList l).toList.take l.length = l := by
  match l, h with
  | [], _ => rfl
  | [_], _ => rfl
  | [_, _], _ => rfl
  | [_, _, _], _ => rfl
  | [_, _, _, _], _ => rfl
  | [_, _, _, _, _], _ => rfl
  | [_, _, _, _, _, _], _ => rfl
  | [_, _, _, _, _, _, _], _ => rfl
  | [_, _, _, _, _, _, _, _], _ => rfl
  | _ :: _ :: _ :: _ :: _ :: _ :: _ :: _ :: _ :: _, h => simp at h; omega

end Data8

/-! ### The Command Table -/

theorem lookupRow_mem {c : Byte} {mk : List Byte → Instr} {rows : List (Byte × (List Byte → Instr))}
    (h : lookupRow c rows = some mk) : (c, mk) ∈ rows := by
  induction rows with
  | nil => cases h
  | cons r rows ih =>
    unfold lookupRow at h
    split at h
    · next hc => cases h; simp [hc]
    · exact List.mem_cons_of_mem _ (ih h)

theorem lookupRow_none {c : Byte} {rows : List (Byte × (List Byte → Instr))} :
    lookupRow c rows = none ↔ c ∉ rows.map Prod.fst := by
  induction rows with
  | nil => simp [lookupRow]
  | cons r rows ih =>
    unfold lookupRow
    split
    · next hc => simp [hc]
    · next hc => simp [ih, hc]

/-- No two rows share a byte. -/
theorem commandRows_nodup : (commandRows.map Prod.fst).Nodup := by decide

@[simp] theorem commandTable_cr : commandTable cr = none := rfl

/-- A row's line is what its instruction encodes to, and its instruction is a command. -/
theorem encode_of_commandTable {c : Byte} {mk : List Byte → Instr} (h : commandTable c = some mk) (args : List Byte) :
    encode (mk args) = commandLine c args ∧ (mk args).rawFrame = none ∧ (mk args).wf = argsFit args := by
  have hm := lookupRow_mem h
  simp only [commandRows, List.cons_append, List.nil_append, List.mem_cons, Prod.mk.injEq, List.not_mem_nil, or_false] at hm
  rcases hm with h | h | h | h | h | h | h | h | h | h | h | h | h | h | h | h | h | h | h | h | h <;>
    obtain ⟨rfl, rfl⟩ := h <;> exact ⟨rfl, rfl, rfl⟩

/-- The letter and the operand of a command, and its row. -/
theorem commandTable_of_rawFrame {i : Instr} (h : i.rawFrame = none) :
    ∃ c args mk, commandTable c = some mk ∧ i = mk args := by
  have row : ∀ c args mk, commandTable c = some mk → ∃ c' args' mk', commandTable c' = some mk' ∧ mk args = mk' args' :=
    fun c args mk hc => ⟨c, args, mk, hc, rfl⟩
  cases i
  case setup args => exact row 0x53#8 args .setup rfl
  case cfgLowerS args => exact row 0x73#8 args .cfgLowerS rfl
  case openBus args => exact row 0x4F#8 args .openBus rfl
  case listenBus args => exact row 0x4C#8 args .listenBus rfl
  case closeBus args => exact row 0x43#8 args .closeBus rfl
  case txStdData args => exact row 0x74#8 args .txStdData rfl
  case txExtData args => exact row 0x54#8 args .txExtData rfl
  case txStdRemote args => exact row 0x72#8 args .txStdRemote rfl
  case txExtRemote args => exact row 0x52#8 args .txExtRemote rfl
  case pollMode args => exact row 0x50#8 args .pollMode rfl
  case autoMode args => exact row 0x41#8 args .autoMode rfl
  case readStatus args => exact row 0x46#8 args .readStatus rfl
  case cfgX args => exact row 0x58#8 args .cfgX rfl
  case cfgW args => exact row 0x57#8 args .cfgW rfl
  case cfgUpperM args => exact row 0x4D#8 args .cfgUpperM rfl
  case cfgLowerM args => exact row 0x6D#8 args .cfgLowerM rfl
  case cfgU args => exact row 0x55#8 args .cfgU rfl
  case version args => exact row 0x56#8 args .version rfl
  case deviceIdent args => exact row 0x4E#8 args .deviceIdent rfl
  case cfgZ args => exact row 0x5A#8 args .cfgZ rfl
  case cfgQ args => exact row 0x51#8 args .cfgQ rfl
  all_goals cases h

/-! ### Decoding a chunk -/

@[simp] theorem commandLine_length (c : Byte) (args : List Byte) : (commandLine c args).length = args.length + 2 := by
  simp [commandLine]

@[simp] theorem commandLine_getLast? (c : Byte) (args : List Byte) : (commandLine c args).getLast? = some cr := by
  rw [commandLine, ← List.cons_append, List.getLast?_concat]

/-- A complete line with a table entry decodes to its instruction, with the bytes between letter and CR as operand. -/
theorem decodeLine_commandLine {c : Byte} {mk : List Byte → Instr} (h : commandTable c = some mk) {args : List Byte}
    (hl : args.length + 2 ≤ lineMax) : decodeLine (commandLine c args) = .ok (mk args) := by
  have h1 : ¬ lineMax < (commandLine c args).length := by simpa using hl
  unfold decodeLine
  rw [if_neg h1, if_pos (commandLine_getLast? c args)]
  simp only [commandLine, h, List.dropLast_concat]

/-- All there is to say of a chunk that decodes. -/
theorem decodeLine_ok {line : List Byte} {i : Instr} (h : decodeLine line = .ok i) :
    ∃ c args mk, commandTable c = some mk ∧ line = commandLine c args ∧ i = mk args ∧ args.length + 2 ≤ lineMax := by
  unfold decodeLine at h
  split at h
  · cases h
  · next hlen =>
    split at h
    · next hlast =>
      cases line with
      | nil => cases h
      | cons c rest =>
        simp only at h
        split at h
        · cases h
        · next mk hmk =>
          cases h
          have hne : rest ≠ [] := by
            rintro rfl
            simp only [List.getLast?_singleton, Option.some.injEq] at hlast
            simp [hlast] at hmk
          have hr : rest = rest.dropLast ++ [cr] := by
            rw [List.getLast?_cons_of_ne_nil hne] at hlast
            exact (List.dropLast_append_getLast? _ hlast).symm
          refine ⟨c, rest.dropLast, mk, hmk, by rw [commandLine, ← hr], rfl, ?_⟩
          simp only [List.length_cons] at hlen
          have : rest.length ≠ 0 := by simpa using hne
          simp only [List.length_dropLast]
          omega
    · cases h

/-- When a chunk is incomplete (R142, R143). -/
theorem decodeLine_incomplete {line : List Byte} (hl : line.length ≤ lineMax) (h : line.getLast? ≠ some cr) :
    decodeLine line = .error .incompleteLine := by
  unfold decodeLine; rw [if_neg (by omega), if_neg h]

/-- When a complete line's byte 0 is unknown (R144). -/
theorem decodeLine_unknown {c : Byte} {rest : List Byte} (hl : (c :: rest).length ≤ lineMax)
    (h : (c :: rest).getLast? = some cr) (hc : commandTable c = none) :
    decodeLine (c :: rest) = .error .unknownCommand := by
  unfold decodeLine; rw [if_neg (by omega), if_pos h]; simp only [hc]

theorem decodeLine_tooLong {line : List Byte} (hl : lineMax < line.length) :
    decodeLine line = .error .chunkTooLong := by
  unfold decodeLine; rw [if_pos hl]

/-- Why a chunk does not decode, read backward. -/
theorem decodeLine_error {line : List Byte} {e : DecodeError} (h : decodeLine line = .error e) :
    (e = .chunkTooLong ∧ lineMax < line.length) ∨
    (e = .incompleteLine ∧ line.length ≤ lineMax ∧ line.getLast? ≠ some cr) ∨
    (e = .unknownCommand ∧ line.length ≤ lineMax ∧ line.getLast? = some cr ∧
      ∃ c rest, line = c :: rest ∧ commandTable c = none) := by
  unfold decodeLine at h
  split at h
  · next hl => cases h; exact .inl ⟨rfl, hl⟩
  · next hl =>
    split at h
    · next hlast =>
      cases line with
      | nil => simp at hlast
      | cons c rest =>
        simp only at h
        split at h
        · next hc => cases h; exact .inr (.inr ⟨rfl, by omega, hlast, c, rest, rfl, hc⟩)
        · cases h
    · next hlast => cases h; exact .inr (.inl ⟨rfl, by omega, hlast⟩)

/-- The encode port: the flags choose the form, and the form gives them back (R101). -/
@[simp] theorem rawFrame_decodeFramePort (raw : CanFrame) : (decodeFramePort raw).rawFrame = some raw := by
  obtain ⟨id, ext, rtr, dlc, data⟩ := raw
  cases ext <;> cases rtr <;> rfl

end Sys2Proof
end

