-- ==== Sys2Proof/Laws/Memory.lean ====
section
/-! SUPPORT. The laws of the byte buffers: a read after a write, the canonical form, and the valid part as a list. -/

namespace Sys2Proof.Machine.Memory

@[simp] theorem read_nil (a : Nat) : Memory.read [] a = none := rfl

@[simp] theorem read_write_same (m : Memory) (a : Nat) (b : Byte) : (m.write a b).read a = some b := by
  induction m with
  | nil => simp [write, read]
  | cons c m ih =>
    unfold write
    split
    · next h => simp [read, Nat.ne_of_lt h, ih]
    · split <;> simp [read]

theorem read_write_other (m : Memory) {a a' : Nat} (b : Byte) (h : a' ≠ a) : (m.write a b).read a' = m.read a' := by
  induction m with
  | nil => simp [write, read, h.symm]
  | cons c m ih =>
    unfold write
    split
    · simp [read, ih]
    · split
      · next _ h2 => simp [read, h2, h.symm]
      · simp [read, h.symm]

/-- A byte of `bs` where `bs` was written, the old contents elsewhere. -/
theorem read_writeAll (bs : List Byte) (m : Memory) (a i : Nat) :
    (m.writeAll a bs).read i = if a ≤ i ∧ i < a + bs.length then bs[i - a]? else m.read i := by
  induction bs generalizing m a with
  | nil => simp [writeAll]
  | cons b bs ih =>
    rw [writeAll, ih]
    by_cases h1 : a + 1 ≤ i ∧ i < a + 1 + bs.length
    · rw [if_pos h1, if_pos ⟨by omega, by simp only [List.length_cons]; omega⟩,
        show i - a = (i - (a + 1)) + 1 by omega, List.getElem?_cons_succ]
    · rw [if_neg h1]
      by_cases h2 : i = a
      · subst h2; simp
      · rw [read_write_other _ _ h2, if_neg (by simp only [List.length_cons]; omega)]

theorem writeAll_append (m : Memory) (a : Nat) (xs ys : List Byte) :
    m.writeAll a (xs ++ ys) = (m.writeAll a xs).writeAll (a + xs.length) ys := by
  induction xs generalizing m a with
  | nil => rfl
  | cons x xs ih => simp [writeAll, ih, Nat.add_assoc, Nat.add_comm 1]

theorem read_ofBytesAt (bs : List Byte) (a i : Nat) :
    (ofBytesAt a bs).read i = if a ≤ i then bs[i - a]? else none := by
  induction bs generalizing a with
  | nil => simp [ofBytesAt]
  | cons b bs ih =>
    by_cases h : a = i
    · subst h; simp [ofBytesAt, read]
    · simp only [ofBytesAt, read, h, if_false, ih]
      by_cases h2 : a + 1 ≤ i
      · rw [if_pos h2, if_pos (by omega), show i - a = (i - (a + 1)) + 1 by omega, List.getElem?_cons_succ]
      · rw [if_neg h2, if_neg (by omega)]

/-- `LINE[i]` of a latched chunk is its byte `i`. -/
@[simp] theorem read_ofBytes (bs : List Byte) (i : Nat) : (ofBytes bs).read i = bs[i]? := by
  simp [ofBytes, read_ofBytesAt]

/-! ### The canonical form -/

/-- The least address of a buffer, if it lists one. -/
theorem wf_cons (c : Host.Cell) (m : Memory) :
    wf (c :: m) = true ↔ (∀ d ∈ m.head?, c.1 < d.1) ∧ wf m = true := by
  cases m <;> simp [wf]

theorem head_write (m : Memory) (a : Nat) (b : Byte) {k : Nat} (ha : k < a) (hm : ∀ d ∈ m.head?, k < d.1) :
    ∀ d ∈ (m.write a b).head?, k < d.1 := by
  cases m with
  | nil => simpa [write] using ha
  | cons c m =>
    have hc : k < c.1 := hm c rfl
    unfold write
    split
    · simpa using hc
    · split <;> simpa using ha

/-- Writing keeps the canonical form. -/
theorem wf_write (m : Memory) (a : Nat) (b : Byte) (h : wf m = true) : wf (m.write a b) = true := by
  induction m with
  | nil => rfl
  | cons c m ih =>
    obtain ⟨h1, h2⟩ := (wf_cons c m).1 h
    unfold write
    split
    · next hlt => exact (wf_cons c _).2 ⟨head_write m a b hlt h1, ih h2⟩
    · split
      · next _ heq => exact (wf_cons _ _).2 ⟨by simpa [← heq] using h1, h2⟩
      · next h3 h4 =>
        exact (wf_cons _ _).2 ⟨by simpa using (show a < c.1 by omega), h⟩

theorem wf_writeAll (bs : List Byte) (m : Memory) (a : Nat) (h : wf m = true) : wf (m.writeAll a bs) = true := by
  induction bs generalizing m a with
  | nil => exact h
  | cons b bs ih => exact ih _ _ (wf_write m a b h)

theorem wf_ofBytesAt (bs : List Byte) (a : Nat) : wf (ofBytesAt a bs) = true := by
  induction bs generalizing a with
  | nil => rfl
  | cons b bs ih =>
    refine (wf_cons _ _).2 ⟨?_, ih _⟩
    cases bs <;> simp [ofBytesAt]

theorem wf_ofBytes (bs : List Byte) : wf (ofBytes bs) = true := wf_ofBytesAt bs 0

/-! ### Which addresses a buffer lists -/

theorem mem_write {m : Memory} {a : Nat} {b : Byte} {c : Host.Cell} (h : c ∈ m.write a b) : c = (a, b) ∨ c ∈ m := by
  induction m with
  | nil => simpa [write] using h
  | cons d m ih =>
    unfold write at h
    split at h
    · rcases List.mem_cons.1 h with rfl | h
      · simp
      · rcases ih h with h | h <;> simp [h]
    · split at h <;> rcases List.mem_cons.1 h with rfl | h <;> simp_all

theorem mem_writeAll {bs : List Byte} {m : Memory} {a : Nat} {c : Host.Cell} (h : c ∈ m.writeAll a bs) :
    (a ≤ c.1 ∧ c.1 < a + bs.length) ∨ c ∈ m := by
  induction bs generalizing m a with
  | nil => exact .inr h
  | cons b bs ih =>
    rcases ih h with h | h
    · left; simp only [List.length_cons]; omega
    · rcases mem_write h with rfl | h
      · left; simp
      · exact .inr h

/-! ### The valid part -/

theorem slice_eq_some {m : Memory} {a n : Nat} {bs : List Byte} :
    m.slice a n = some bs ↔ bs.length = n ∧ ∀ i, i < n → m.read (a + i) = bs[i]? := by
  induction n generalizing a bs with
  | zero => cases bs <;> simp [slice]
  | succ n ih =>
    unfold slice
    constructor
    · intro h
      split at h
      · next b bs' hb hbs =>
        obtain rfl : b :: bs' = bs := by simpa using h
        obtain ⟨hl, hr⟩ := ih.1 hbs
        refine ⟨by simp [hl], fun i hi => ?_⟩
        cases i with
        | zero => simpa using hb
        | succ i => have := hr i (by omega); simpa [Nat.add_assoc, Nat.add_comm 1] using this
      · cases h
    · rintro ⟨hl, hr⟩
      cases bs with
      | nil => simp at hl
      | cons b bs =>
        have h0 : m.read a = some b := by simpa using hr 0 (by omega)
        have h1 : m.slice (a + 1) n = some bs := ih.2 ⟨by simpa using hl, fun i hi => by
          have := hr (i + 1) (by omega)
          simpa [Nat.add_assoc, Nat.add_comm 1] using this⟩
        simp [h0, h1]

/-- What was appended from 0 is the valid part. -/
@[simp] theorem slice_writeAll (m : Memory) (bs : List Byte) : (m.writeAll 0 bs).slice 0 bs.length = some bs := by
  refine slice_eq_some.2 ⟨rfl, fun i hi => ?_⟩
  rw [read_writeAll, if_pos ⟨by omega, by omega⟩]; simp

end Sys2Proof.Machine.Memory
end

