-- ==== Sys2Proof/Laws/State.lean ====
section
/-! SUPPORT. One lemma per field per update of State, each true by rfl. -/

namespace Sys2Proof.Machine.State

variable (s : State)

@[simp] theorem withSchedule_cfg (ts : List Trigger) : (s.withSchedule ts).cfg = s.cfg := rfl
@[simp] theorem withSchedule_schedule (ts : List Trigger) : (s.withSchedule ts).schedule = ts := rfl
@[simp] theorem withSchedule_deviceId (ts : List Trigger) : (s.withSchedule ts).deviceId = s.deviceId := rfl
@[simp] theorem withSchedule_statusBytes (ts : List Trigger) : (s.withSchedule ts).statusBytes = s.statusBytes := rfl
@[simp] theorem withSchedule_line (ts : List Trigger) : (s.withSchedule ts).line = s.line := rfl
@[simp] theorem withSchedule_len (ts : List Trigger) : (s.withSchedule ts).len = s.len := rfl
@[simp] theorem withSchedule_resp (ts : List Trigger) : (s.withSchedule ts).resp = s.resp := rfl
@[simp] theorem withSchedule_rlen (ts : List Trigger) : (s.withSchedule ts).rlen = s.rlen := rfl
@[simp] theorem withSchedule_out (ts : List Trigger) : (s.withSchedule ts).out = s.out := rfl
@[simp] theorem withSchedule_olen (ts : List Trigger) : (s.withSchedule ts).olen = s.olen := rfl
@[simp] theorem withSchedule_frame (ts : List Trigger) : (s.withSchedule ts).frame = s.frame := rfl
@[simp] theorem withSchedule_pos (ts : List Trigger) : (s.withSchedule ts).pos = s.pos := rfl
@[simp] theorem withSchedule_err (ts : List Trigger) : (s.withSchedule ts).err = s.err := rfl
@[simp] theorem withSchedule_fsm (ts : List Trigger) : (s.withSchedule ts).fsm = s.fsm := rfl
@[simp] theorem withSchedule_fx (ts : List Trigger) : (s.withSchedule ts).fx = s.fx := rfl

@[simp] theorem withInputs_cfg (d : Word32) (b : List Byte) : (s.withInputs d b).cfg = s.cfg := rfl
@[simp] theorem withInputs_schedule (d : Word32) (b : List Byte) : (s.withInputs d b).schedule = s.schedule := rfl
@[simp] theorem withInputs_deviceId (d : Word32) (b : List Byte) : (s.withInputs d b).deviceId = d := rfl
@[simp] theorem withInputs_statusBytes (d : Word32) (b : List Byte) : (s.withInputs d b).statusBytes = b := rfl
@[simp] theorem withInputs_line (d : Word32) (b : List Byte) : (s.withInputs d b).line = s.line := rfl
@[simp] theorem withInputs_len (d : Word32) (b : List Byte) : (s.withInputs d b).len = s.len := rfl
@[simp] theorem withInputs_resp (d : Word32) (b : List Byte) : (s.withInputs d b).resp = s.resp := rfl
@[simp] theorem withInputs_rlen (d : Word32) (b : List Byte) : (s.withInputs d b).rlen = s.rlen := rfl
@[simp] theorem withInputs_out (d : Word32) (b : List Byte) : (s.withInputs d b).out = s.out := rfl
@[simp] theorem withInputs_olen (d : Word32) (b : List Byte) : (s.withInputs d b).olen = s.olen := rfl
@[simp] theorem withInputs_frame (d : Word32) (b : List Byte) : (s.withInputs d b).frame = s.frame := rfl
@[simp] theorem withInputs_pos (d : Word32) (b : List Byte) : (s.withInputs d b).pos = s.pos := rfl
@[simp] theorem withInputs_err (d : Word32) (b : List Byte) : (s.withInputs d b).err = s.err := rfl
@[simp] theorem withInputs_fsm (d : Word32) (b : List Byte) : (s.withInputs d b).fsm = s.fsm := rfl
@[simp] theorem withInputs_fx (d : Word32) (b : List Byte) : (s.withInputs d b).fx = s.fx := rfl

@[simp] theorem withLine_cfg (m : Memory) (n : Nat) : (s.withLine m n).cfg = s.cfg := rfl
@[simp] theorem withLine_schedule (m : Memory) (n : Nat) : (s.withLine m n).schedule = s.schedule := rfl
@[simp] theorem withLine_deviceId (m : Memory) (n : Nat) : (s.withLine m n).deviceId = s.deviceId := rfl
@[simp] theorem withLine_statusBytes (m : Memory) (n : Nat) : (s.withLine m n).statusBytes = s.statusBytes := rfl
@[simp] theorem withLine_line (m : Memory) (n : Nat) : (s.withLine m n).line = m := rfl
@[simp] theorem withLine_len (m : Memory) (n : Nat) : (s.withLine m n).len = n := rfl
@[simp] theorem withLine_resp (m : Memory) (n : Nat) : (s.withLine m n).resp = s.resp := rfl
@[simp] theorem withLine_rlen (m : Memory) (n : Nat) : (s.withLine m n).rlen = s.rlen := rfl
@[simp] theorem withLine_out (m : Memory) (n : Nat) : (s.withLine m n).out = s.out := rfl
@[simp] theorem withLine_olen (m : Memory) (n : Nat) : (s.withLine m n).olen = s.olen := rfl
@[simp] theorem withLine_frame (m : Memory) (n : Nat) : (s.withLine m n).frame = s.frame := rfl
@[simp] theorem withLine_pos (m : Memory) (n : Nat) : (s.withLine m n).pos = s.pos := rfl
@[simp] theorem withLine_err (m : Memory) (n : Nat) : (s.withLine m n).err = s.err := rfl
@[simp] theorem withLine_fsm (m : Memory) (n : Nat) : (s.withLine m n).fsm = s.fsm := rfl
@[simp] theorem withLine_fx (m : Memory) (n : Nat) : (s.withLine m n).fx = s.fx := rfl

@[simp] theorem withResp_cfg (m : Memory) (n : Nat) : (s.withResp m n).cfg = s.cfg := rfl
@[simp] theorem withResp_schedule (m : Memory) (n : Nat) : (s.withResp m n).schedule = s.schedule := rfl
@[simp] theorem withResp_deviceId (m : Memory) (n : Nat) : (s.withResp m n).deviceId = s.deviceId := rfl
@[simp] theorem withResp_statusBytes (m : Memory) (n : Nat) : (s.withResp m n).statusBytes = s.statusBytes := rfl
@[simp] theorem withResp_line (m : Memory) (n : Nat) : (s.withResp m n).line = s.line := rfl
@[simp] theorem withResp_len (m : Memory) (n : Nat) : (s.withResp m n).len = s.len := rfl
@[simp] theorem withResp_resp (m : Memory) (n : Nat) : (s.withResp m n).resp = m := rfl
@[simp] theorem withResp_rlen (m : Memory) (n : Nat) : (s.withResp m n).rlen = n := rfl
@[simp] theorem withResp_out (m : Memory) (n : Nat) : (s.withResp m n).out = s.out := rfl
@[simp] theorem withResp_olen (m : Memory) (n : Nat) : (s.withResp m n).olen = s.olen := rfl
@[simp] theorem withResp_frame (m : Memory) (n : Nat) : (s.withResp m n).frame = s.frame := rfl
@[simp] theorem withResp_pos (m : Memory) (n : Nat) : (s.withResp m n).pos = s.pos := rfl
@[simp] theorem withResp_err (m : Memory) (n : Nat) : (s.withResp m n).err = s.err := rfl
@[simp] theorem withResp_fsm (m : Memory) (n : Nat) : (s.withResp m n).fsm = s.fsm := rfl
@[simp] theorem withResp_fx (m : Memory) (n : Nat) : (s.withResp m n).fx = s.fx := rfl

@[simp] theorem withOut_cfg (m : Memory) (n : Nat) : (s.withOut m n).cfg = s.cfg := rfl
@[simp] theorem withOut_schedule (m : Memory) (n : Nat) : (s.withOut m n).schedule = s.schedule := rfl
@[simp] theorem withOut_deviceId (m : Memory) (n : Nat) : (s.withOut m n).deviceId = s.deviceId := rfl
@[simp] theorem withOut_statusBytes (m : Memory) (n : Nat) : (s.withOut m n).statusBytes = s.statusBytes := rfl
@[simp] theorem withOut_line (m : Memory) (n : Nat) : (s.withOut m n).line = s.line := rfl
@[simp] theorem withOut_len (m : Memory) (n : Nat) : (s.withOut m n).len = s.len := rfl
@[simp] theorem withOut_resp (m : Memory) (n : Nat) : (s.withOut m n).resp = s.resp := rfl
@[simp] theorem withOut_rlen (m : Memory) (n : Nat) : (s.withOut m n).rlen = s.rlen := rfl
@[simp] theorem withOut_out (m : Memory) (n : Nat) : (s.withOut m n).out = m := rfl
@[simp] theorem withOut_olen (m : Memory) (n : Nat) : (s.withOut m n).olen = n := rfl
@[simp] theorem withOut_frame (m : Memory) (n : Nat) : (s.withOut m n).frame = s.frame := rfl
@[simp] theorem withOut_pos (m : Memory) (n : Nat) : (s.withOut m n).pos = s.pos := rfl
@[simp] theorem withOut_err (m : Memory) (n : Nat) : (s.withOut m n).err = s.err := rfl
@[simp] theorem withOut_fsm (m : Memory) (n : Nat) : (s.withOut m n).fsm = s.fsm := rfl
@[simp] theorem withOut_fx (m : Memory) (n : Nat) : (s.withOut m n).fx = s.fx := rfl

@[simp] theorem withFrame_cfg (f : CanFrame) : (s.withFrame f).cfg = s.cfg := rfl
@[simp] theorem withFrame_schedule (f : CanFrame) : (s.withFrame f).schedule = s.schedule := rfl
@[simp] theorem withFrame_deviceId (f : CanFrame) : (s.withFrame f).deviceId = s.deviceId := rfl
@[simp] theorem withFrame_statusBytes (f : CanFrame) : (s.withFrame f).statusBytes = s.statusBytes := rfl
@[simp] theorem withFrame_line (f : CanFrame) : (s.withFrame f).line = s.line := rfl
@[simp] theorem withFrame_len (f : CanFrame) : (s.withFrame f).len = s.len := rfl
@[simp] theorem withFrame_resp (f : CanFrame) : (s.withFrame f).resp = s.resp := rfl
@[simp] theorem withFrame_rlen (f : CanFrame) : (s.withFrame f).rlen = s.rlen := rfl
@[simp] theorem withFrame_out (f : CanFrame) : (s.withFrame f).out = s.out := rfl
@[simp] theorem withFrame_olen (f : CanFrame) : (s.withFrame f).olen = s.olen := rfl
@[simp] theorem withFrame_frame (f : CanFrame) : (s.withFrame f).frame = f := rfl
@[simp] theorem withFrame_pos (f : CanFrame) : (s.withFrame f).pos = s.pos := rfl
@[simp] theorem withFrame_err (f : CanFrame) : (s.withFrame f).err = s.err := rfl
@[simp] theorem withFrame_fsm (f : CanFrame) : (s.withFrame f).fsm = s.fsm := rfl
@[simp] theorem withFrame_fx (f : CanFrame) : (s.withFrame f).fx = s.fx := rfl

@[simp] theorem withPos_cfg (p : Nat) : (s.withPos p).cfg = s.cfg := rfl
@[simp] theorem withPos_schedule (p : Nat) : (s.withPos p).schedule = s.schedule := rfl
@[simp] theorem withPos_deviceId (p : Nat) : (s.withPos p).deviceId = s.deviceId := rfl
@[simp] theorem withPos_statusBytes (p : Nat) : (s.withPos p).statusBytes = s.statusBytes := rfl
@[simp] theorem withPos_line (p : Nat) : (s.withPos p).line = s.line := rfl
@[simp] theorem withPos_len (p : Nat) : (s.withPos p).len = s.len := rfl
@[simp] theorem withPos_resp (p : Nat) : (s.withPos p).resp = s.resp := rfl
@[simp] theorem withPos_rlen (p : Nat) : (s.withPos p).rlen = s.rlen := rfl
@[simp] theorem withPos_out (p : Nat) : (s.withPos p).out = s.out := rfl
@[simp] theorem withPos_olen (p : Nat) : (s.withPos p).olen = s.olen := rfl
@[simp] theorem withPos_frame (p : Nat) : (s.withPos p).frame = s.frame := rfl
@[simp] theorem withPos_pos (p : Nat) : (s.withPos p).pos = p := rfl
@[simp] theorem withPos_err (p : Nat) : (s.withPos p).err = s.err := rfl
@[simp] theorem withPos_fsm (p : Nat) : (s.withPos p).fsm = s.fsm := rfl
@[simp] theorem withPos_fx (p : Nat) : (s.withPos p).fx = s.fx := rfl

@[simp] theorem withErr_cfg (e : ErrKind) : (s.withErr e).cfg = s.cfg := rfl
@[simp] theorem withErr_schedule (e : ErrKind) : (s.withErr e).schedule = s.schedule := rfl
@[simp] theorem withErr_deviceId (e : ErrKind) : (s.withErr e).deviceId = s.deviceId := rfl
@[simp] theorem withErr_statusBytes (e : ErrKind) : (s.withErr e).statusBytes = s.statusBytes := rfl
@[simp] theorem withErr_line (e : ErrKind) : (s.withErr e).line = s.line := rfl
@[simp] theorem withErr_len (e : ErrKind) : (s.withErr e).len = s.len := rfl
@[simp] theorem withErr_resp (e : ErrKind) : (s.withErr e).resp = s.resp := rfl
@[simp] theorem withErr_rlen (e : ErrKind) : (s.withErr e).rlen = s.rlen := rfl
@[simp] theorem withErr_out (e : ErrKind) : (s.withErr e).out = s.out := rfl
@[simp] theorem withErr_olen (e : ErrKind) : (s.withErr e).olen = s.olen := rfl
@[simp] theorem withErr_frame (e : ErrKind) : (s.withErr e).frame = s.frame := rfl
@[simp] theorem withErr_pos (e : ErrKind) : (s.withErr e).pos = s.pos := rfl
@[simp] theorem withErr_err (e : ErrKind) : (s.withErr e).err = e := rfl
@[simp] theorem withErr_fsm (e : ErrKind) : (s.withErr e).fsm = s.fsm := rfl
@[simp] theorem withErr_fx (e : ErrKind) : (s.withErr e).fx = s.fx := rfl

@[simp] theorem withFsm_cfg (f : FsmState) : (s.withFsm f).cfg = s.cfg := rfl
@[simp] theorem withFsm_schedule (f : FsmState) : (s.withFsm f).schedule = s.schedule := rfl
@[simp] theorem withFsm_deviceId (f : FsmState) : (s.withFsm f).deviceId = s.deviceId := rfl
@[simp] theorem withFsm_statusBytes (f : FsmState) : (s.withFsm f).statusBytes = s.statusBytes := rfl
@[simp] theorem withFsm_line (f : FsmState) : (s.withFsm f).line = s.line := rfl
@[simp] theorem withFsm_len (f : FsmState) : (s.withFsm f).len = s.len := rfl
@[simp] theorem withFsm_resp (f : FsmState) : (s.withFsm f).resp = s.resp := rfl
@[simp] theorem withFsm_rlen (f : FsmState) : (s.withFsm f).rlen = s.rlen := rfl
@[simp] theorem withFsm_out (f : FsmState) : (s.withFsm f).out = s.out := rfl
@[simp] theorem withFsm_olen (f : FsmState) : (s.withFsm f).olen = s.olen := rfl
@[simp] theorem withFsm_frame (f : FsmState) : (s.withFsm f).frame = s.frame := rfl
@[simp] theorem withFsm_pos (f : FsmState) : (s.withFsm f).pos = s.pos := rfl
@[simp] theorem withFsm_err (f : FsmState) : (s.withFsm f).err = s.err := rfl
@[simp] theorem withFsm_fsm (f : FsmState) : (s.withFsm f).fsm = f := rfl
@[simp] theorem withFsm_fx (f : FsmState) : (s.withFsm f).fx = s.fx := rfl

@[simp] theorem withFx_cfg (f : Option Effect) : (s.withFx f).cfg = s.cfg := rfl
@[simp] theorem withFx_schedule (f : Option Effect) : (s.withFx f).schedule = s.schedule := rfl
@[simp] theorem withFx_deviceId (f : Option Effect) : (s.withFx f).deviceId = s.deviceId := rfl
@[simp] theorem withFx_statusBytes (f : Option Effect) : (s.withFx f).statusBytes = s.statusBytes := rfl
@[simp] theorem withFx_line (f : Option Effect) : (s.withFx f).line = s.line := rfl
@[simp] theorem withFx_len (f : Option Effect) : (s.withFx f).len = s.len := rfl
@[simp] theorem withFx_resp (f : Option Effect) : (s.withFx f).resp = s.resp := rfl
@[simp] theorem withFx_rlen (f : Option Effect) : (s.withFx f).rlen = s.rlen := rfl
@[simp] theorem withFx_out (f : Option Effect) : (s.withFx f).out = s.out := rfl
@[simp] theorem withFx_olen (f : Option Effect) : (s.withFx f).olen = s.olen := rfl
@[simp] theorem withFx_frame (f : Option Effect) : (s.withFx f).frame = s.frame := rfl
@[simp] theorem withFx_pos (f : Option Effect) : (s.withFx f).pos = s.pos := rfl
@[simp] theorem withFx_err (f : Option Effect) : (s.withFx f).err = s.err := rfl
@[simp] theorem withFx_fsm (f : Option Effect) : (s.withFx f).fsm = s.fsm := rfl
@[simp] theorem withFx_fx (f : Option Effect) : (s.withFx f).fx = f := rfl

end Sys2Proof.Machine.State
end

