-- ==== Sys2Proof/Laws/Ops.lean ====
section
/-! SUPPORT. What each shared operation can do, said once: appending to the two output buffers, reading the chunk,
building a frame, and the frame of a dispatch transaction around its handler. -/

namespace Sys2Proof.Machine

/-! ### Sequencing -/

@[simp] theorem andThen_next (s : State) (k : State → Out) : andThen (.next s) k = k s := rfl
@[simp] theorem andThen_fault (f : Fault) (k : State → Out) : andThen (.fault f) k = .fault f := rfl
@[simp] theorem andThen_refused (r : Refusal) (k : State → Out) : andThen (.refused r) k = .refused r := rfl

theorem andThen_eq_next {o : Out} {k : State → Out} {s' : State} :
    andThen o k = .next s' ↔ ∃ s, o = .next s ∧ k s = .next s' := by
  cases o <;> simp

@[simp] theorem Res.bind_ok {α β : Type} (a : α) (s : State) (k : α → State → Res β) : (Res.ok a s).bind k = k a s := rfl
@[simp] theorem Res.bind_raised {α β : Type} (s : State) (k : α → State → Res β) :
    (Res.raised s : Res α).bind k = .raised s := rfl
@[simp] theorem Res.bind_stop {α β : Type} (f : Fault) (k : α → State → Res β) :
    (Res.stop f : Res α).bind k = .stop f := rfl
@[simp] theorem Res.toCaller_ok {α : Type} (a : α) (s : State) (k : State → Out) : (Res.ok a s).toCaller k = k s := rfl
@[simp] theorem Res.toCaller_raised {α : Type} (s : State) (k : State → Out) :
    (Res.raised s : Res α).toCaller k = k s := rfl
@[simp] theorem Res.toCaller_stop {α : Type} (f : Fault) (k : State → Out) :
    (Res.stop f : Res α).toCaller k = .fault f := rfl

/-! ### Status -/

theorem raise_of_noError {k : ErrKind} {s : State} (h : s.err = .noError) : raise k s = s.withErr k := by
  simp [raise, h]

theorem raise_of_error {k : ErrKind} {s : State} (h : s.err ≠ .noError) : raise k s = s := by
  simp [raise, h]

/-- `raise` writes `ERR` and nothing else. -/
theorem raise_eq (k : ErrKind) (s : State) : raise k s = s.withErr (raise k s).err := by
  unfold raise; split <;> rfl

/-! ### Appending to `RESP` and `OUT` -/

theorem respAppend_next {b : Byte} {s : State} (h : s.rlen < s.cfg.respCap) :
    respAppend b s = .next (s.withResp (s.resp.write s.rlen b) (s.rlen + 1)) := by
  simp [respAppend, h]

theorem respAppend_full {b : Byte} {s : State} (h : s.cfg.respCap ≤ s.rlen) :
    respAppend b s = .refused .responseFull := by
  simp [respAppend, Nat.not_lt.2 h]

/-- Appending what fits writes it from the cursor on, and moves the cursor. -/
theorem respAppendAll_next {bs : List Byte} {s : State} (h : s.rlen + bs.length ≤ s.cfg.respCap) :
    respAppendAll bs s = .next (s.withResp (s.resp.writeAll s.rlen bs) (s.rlen + bs.length)) := by
  induction bs generalizing s with
  | nil => rfl
  | cons b bs ih =>
    simp only [List.length_cons] at h
    rw [respAppendAll, respAppend_next (by omega), andThen_next, ih (by simp; omega)]
    simp [State.withResp, Memory.writeAll]; omega

/-- Appending more than fits is refused. -/
theorem respAppendAll_full {bs : List Byte} {s : State} (h : s.rlen ≤ s.cfg.respCap)
    (h' : s.cfg.respCap < s.rlen + bs.length) : respAppendAll bs s = .refused .responseFull := by
  induction bs generalizing s with
  | nil => simp at h'; omega
  | cons b bs ih =>
    rw [respAppendAll]
    by_cases hc : s.rlen < s.cfg.respCap
    · rw [respAppend_next hc, andThen_next, ih]
      · simpa using hc
      · simp at h' ⊢; omega
    · rw [respAppend_full (by omega), andThen_refused]

theorem outAppend_next {b : Byte} {s : State} (h : s.olen < s.cfg.outCap) :
    outAppend b s = .next (s.withOut (s.out.write s.olen b) (s.olen + 1)) := by
  simp [outAppend, h]

theorem outAppend_full {b : Byte} {s : State} (h : s.cfg.outCap ≤ s.olen) :
    outAppend b s = .refused .outputFull := by
  simp [outAppend, Nat.not_lt.2 h]

theorem outAppendAll_next {bs : List Byte} {s : State} (h : s.olen + bs.length ≤ s.cfg.outCap) :
    outAppendAll bs s = .next (s.withOut (s.out.writeAll s.olen bs) (s.olen + bs.length)) := by
  induction bs generalizing s with
  | nil => rfl
  | cons b bs ih =>
    simp only [List.length_cons] at h
    rw [outAppendAll, outAppend_next (by omega), andThen_next, ih (by simp; omega)]
    simp [State.withOut, Memory.writeAll]; omega

/-! ### Capacities -/

theorem respCap_ge_nine (c : Config) : 9 ≤ c.respCap := by simp [Config.respCap, Config.respMax]; omega

theorem respCap_pos (c : Config) : 0 < c.respCap := by have := respCap_ge_nine c; omega

theorem versionBytes_lt_respCap (c : Config) : c.versionBytes.length < c.respCap := by
  simp [Config.respCap, Config.respMax]; omega

theorem statusMax_lt_respCap (c : Config) : c.statusMax < c.respCap := by
  simp [Config.respCap, Config.respMax]; omega

theorem outCap_ge (c : Config) : 27 ≤ c.outCap := by simp [Config.outCap, outMax]

/-! ### Reading the chunk -/

theorem lineRead_absent {i : Nat} {s : State} (h : s.len ≤ i) : lineRead i s = .raised (raise .truncatedFrame s) := by
  simp [lineRead, h]

theorem lineRead_present {i : Nat} {s : State} {b : Byte} (h : i < s.len) (hb : s.line.read i = some b) :
    lineRead i s = .ok b s := by
  simp [lineRead, Nat.not_le.2 h, hb]

/-- `LINE` and `LEN` hold the chunk `bs`. -/
def Holds (s : State) (bs : List Byte) : Prop := s.line = Memory.ofBytes bs ∧ s.len = bs.length

theorem Holds.lineRead_some {s : State} {bs : List Byte} (h : Holds s bs) {i : Nat} {b : Byte} (hb : bs[i]? = some b) :
    lineRead i s = .ok b s := by
  have hi : i < bs.length := (List.getElem?_eq_some_iff.1 hb).1
  exact lineRead_present (h.2 ▸ hi) (by rw [h.1, Memory.read_ofBytes, hb])

theorem Holds.lineRead_none {s : State} {bs : List Byte} (h : Holds s bs) {i : Nat} (hi : bs.length ≤ i) :
    lineRead i s = .raised (raise .truncatedFrame s) := lineRead_absent (h.2 ▸ hi)

theorem Holds.lineReadMany {s : State} {bs : List Byte} (h : Holds s bs) {i n : Nat} (hn : i + n ≤ bs.length) :
    lineReadMany i n s = .ok ((bs.drop i).take n) s := by
  induction n generalizing i with
  | zero => simp [Machine.lineReadMany]
  | succ n ih =>
    have hi : i < bs.length := by omega
    rw [Machine.lineReadMany, h.lineRead_some (List.getElem?_eq_getElem hi), Res.bind_ok, ih (by omega), Res.bind_ok,
      List.drop_eq_getElem_cons hi, List.take_succ_cons]

/-! ### `ConstructFrame` -/

/-- R24 read as one condition: what `ConstructFrame` accepts. -/
def frameAccepted (id : Word32) (ext : Bool) (dlc : Nibble) : Bool :=
  decide (dlc ≤ dlcMax) && decide (id ≤ if ext then extIdMax else stdIdMax)

theorem constructFrame_ok {id : Word32} {ext rtr : Bool} {dlc : Nibble} {data : Data8} {s : State}
    (h : frameAccepted id ext dlc = true) :
    constructFrame id ext rtr dlc data s = .ok () (s.withFrame (builtFrame id ext rtr dlc data)) := by
  simp only [frameAccepted, Bool.and_eq_true, decide_eq_true_eq] at h
  rw [constructFrame, if_neg (BitVec.not_lt.2 h.1)]
  cases ext
  · rw [if_neg (by simpa using h.2), if_neg (by simp)]
  · rw [if_neg (by simp), if_neg (by simpa using h.2)]

theorem constructFrame_raised {id : Word32} {ext rtr : Bool} {dlc : Nibble} {data : Data8} {s : State}
    (h : frameAccepted id ext dlc = false) :
    constructFrame id ext rtr dlc data s = .raised (raise .malformedFrame s) := by
  rw [constructFrame]
  by_cases hd : dlcMax < dlc
  · rw [if_pos hd]
  · rw [if_neg hd]
    have hid : (if ext then extIdMax else stdIdMax) < id := by
      have hd' : dlc ≤ dlcMax := BitVec.not_lt.1 hd
      simpa [frameAccepted, hd', BitVec.not_le] using h
    cases ext
    · rw [if_pos (by simpa using hid)]
    · rw [if_neg (by simp), if_pos (by simpa using hid)]

/-- At the encode port, where the identifier has 29 bits, what is accepted is what is well formed (R23). -/
theorem frameAccepted_port (f : CanFrame) : frameAccepted (f.id.setWidth 32) f.ext f.dlc = f.wf := by
  unfold frameAccepted CanFrame.wf
  cases f.ext
  · simp
  · have : f.id.setWidth 32 ≤ extIdMax := by
      simp only [extIdMax, BitVec.le_def, BitVec.toNat_setWidth, BitVec.toNat_ofNat]
      have := f.id.isLt
      omega
    simp [this]

/-! ### The dispatch transaction around a handler -/

theorem holds_begin (line : List Byte) (s : State) : Holds ((beginDispatch line s).withFsm .dispatching) line :=
  ⟨rfl, rfl⟩

theorem runCommand_tooLong {line : List Byte} {h : State → Out} {s : State} (hl : lineMax < line.length) :
    runCommand line h s = .refused .chunkTooLong := by
  rw [runCommand, if_pos hl]

theorem runCommand_eq {line : List Byte} {h : State → Out} {s : State} (hl : line.length ≤ lineMax) :
    runCommand line h s = andThen (h ((beginDispatch line s).withFsm .dispatching)) endDispatch := by
  rw [runCommand, if_neg (by omega)]

theorem endDispatch_next {s : State} (h : s.rlen < s.cfg.respCap) :
    endDispatch s =
      .next ((s.withResp (s.resp.write s.rlen cr) (s.rlen + 1)).withFsm .awaitingTerminator) := by
  rw [endDispatch, respAppend_next h, andThen_next]

theorem endDispatch_full {s : State} (h : s.cfg.respCap ≤ s.rlen) : endDispatch s = .refused .responseFull := by
  rw [endDispatch, respAppend_full h, andThen_refused]

end Sys2Proof.Machine
end

