-- ==== Sys2Proof/Laws/Codec.lean ====
section
/-! SUPPORT. The codec's laws: each field reader on text that is good, what any of them can do on any text, and what
`Encode` writes. -/

namespace Sys2Proof.Machine

/-! ### Text and its values -/

theorem hexVals_length {cs : List Byte} {vs : List Nibble} (h : hexVals cs = some vs) : vs.length = cs.length := by
  induction cs generalizing vs with
  | nil => cases h; rfl
  | cons c cs ih =>
    unfold hexVals at h
    split at h
    · next hvs => cases h; simp [ih hvs]
    · cases h

theorem hexBytes_length : ∀ {cs ds : List Byte}, hexBytes cs = some ds → cs.length = 2 * ds.length
  | [], _, h => by cases h; rfl
  | [_], _, h => by cases h
  | _ :: _ :: cs, _, h => by
    unfold hexBytes at h
    split at h
    · next hb =>
      cases h
      have := hexBytes_length hb
      simp only [List.length_cons]; omega
    · cases h

@[simp] theorem hexBytes_digits (bs : List Byte) : hexBytes (bs.flatMap byteDigits) = some bs := by
  induction bs with
  | nil => rfl
  | cons b bs ih =>
    simp only [List.flatMap_cons, byteDigits, List.cons_append, List.nil_append, hexBytes, hexVal_hexChar]
    rw [ih]; simp

/-! ### The chunk stays put -/

theorem Holds.withPos {s : State} {bs : List Byte} (h : Holds s bs) (p : Nat) : Holds (s.withPos p) bs := h
theorem Holds.withFsm {s : State} {bs : List Byte} (h : Holds s bs) (f : FsmState) : Holds (s.withFsm f) bs := h

theorem drop_head? {bs cs : List Byte} {c : Byte} {p : Nat} (h : bs.drop p = c :: cs) : bs[p]? = some c := by
  have := congrArg List.head? h
  simpa [List.head?_drop] using this

theorem drop_tail {bs cs : List Byte} {c : Byte} {p : Nat} (h : bs.drop p = c :: cs) : bs.drop (p + 1) = cs := by
  rw [← List.tail_drop, h]; rfl

/-! ### One nibble (R122) -/

theorem nibbleAtPos_ok {s : State} {bs : List Byte} (h : Holds s bs) {b : Byte} {v : Nibble} (hb : bs[s.pos]? = some b)
    (hv : hexVal b = some v) : nibbleAtPos s = .ok v (s.withPos (s.pos + 1)) := by
  rw [nibbleAtPos, h.lineRead_some hb, Res.bind_ok, hv]

theorem nibbleAtPos_bad {s : State} {bs : List Byte} (h : Holds s bs) {b : Byte} (hb : bs[s.pos]? = some b)
    (hv : hexVal b = none) : nibbleAtPos s = .raised (raise .malformedFrame s) := by
  rw [nibbleAtPos, h.lineRead_some hb, Res.bind_ok, hv]

theorem nibbleAtPos_absent {s : State} {bs : List Byte} (h : Holds s bs) (hp : bs.length ≤ s.pos) :
    nibbleAtPos s = .raised (raise .truncatedFrame s) := by
  rw [nibbleAtPos, h.lineRead_none hp, Res.bind_raised]

/-! ### Whole fields, on good text -/

theorem readIdentifier_ok {cs rest bs : List Byte} {vs : List Nibble} {s : State} {acc : Word32} (h : Holds s bs)
    (hd : bs.drop s.pos = cs ++ rest) (hv : hexVals cs = some vs) :
    readIdentifier cs.length acc s =
      .ok (vs.foldl (fun acc v => acc * 16#32 + v.setWidth 32) acc) (s.withPos (s.pos + cs.length)) := by
  induction cs generalizing s acc vs with
  | nil => cases hv; rfl
  | cons c cs ih =>
    unfold hexVals at hv
    split at hv
    · next v vs' hc hcs =>
      cases hv
      rw [List.length_cons, readIdentifier, nibbleAtPos_ok h (drop_head? hd) hc, Res.bind_ok,
        ih (h.withPos _) (by simpa using drop_tail hd) hcs]
      simp [State.withPos]; omega
    · cases hv

theorem readDlc_ok {s : State} {bs : List Byte} (h : Holds s bs) {b : Byte} {v : Nibble} (hb : bs[s.pos]? = some b)
    (hv : hexVal b = some v) (hle : v ≤ dlcMax) : readDlc s = .ok v (s.withPos (s.pos + 1)) := by
  rw [readDlc, nibbleAtPos_ok h hb hv, Res.bind_ok, if_neg (BitVec.not_lt.2 hle)]

theorem readDlc_range {s : State} {bs : List Byte} (h : Holds s bs) {b : Byte} {v : Nibble} (hb : bs[s.pos]? = some b)
    (hv : hexVal b = some v) (hlt : dlcMax < v) :
    readDlc s = .raised (raise .malformedFrame (s.withPos (s.pos + 1))) := by
  rw [readDlc, nibbleAtPos_ok h hb hv, Res.bind_ok, if_pos hlt]

theorem readDataByte_ok {s : State} {bs rest : List Byte} (h : Holds s bs) {a b : Byte} {va vb : Nibble}
    (hd : bs.drop s.pos = a :: b :: rest) (ha : hexVal a = some va) (hb : hexVal b = some vb) :
    readDataByte s = .ok (byteOfNibbles va vb) (s.withPos (s.pos + 2)) := by
  rw [readDataByte, nibbleAtPos_ok h (drop_head? hd) ha, Res.bind_ok,
    nibbleAtPos_ok (h.withPos _) (by simpa using drop_head? (drop_tail hd)) hb, Res.bind_ok]
  rfl

theorem readData_ok : ∀ {cs rest bs ds : List Byte} {s : State}, Holds s bs → bs.drop s.pos = cs ++ rest →
    hexBytes cs = some ds → readData ds.length s = .ok ds (s.withPos (s.pos + cs.length))
  | [], _, _, _, _, _, _, hv => by cases hv; rfl
  | [_], _, _, _, _, _, _, hv => by cases hv
  | a :: b :: cs, rest, bs, ds, s, h, hd, hv => by
    unfold hexBytes at hv
    split at hv
    · next va vb ds' ha hb hcs =>
      cases hv
      have hd' : bs.drop (s.pos + 2) = cs ++ rest := drop_tail (drop_tail hd)
      rw [List.length_cons, readData, readDataByte_ok h hd ha hb, Res.bind_ok,
        readData_ok (h.withPos (s.pos + 2)) hd' hcs, Res.bind_ok]
      simp [State.withPos]; omega
    · cases hv

theorem readDataField_ok {cs rest bs ds : List Byte} {rtr : Bool} {dlc : Nibble} {s : State} (h : Holds s bs)
    (hd : bs.drop s.pos = cs ++ rest) (hv : hexBytes cs = some ds) (hn : ds.length = if rtr then 0 else dlc.toNat) :
    readDataField rtr dlc s = .ok ds (s.withPos (s.pos + cs.length)) := by
  cases rtr
  · rw [readDataField, if_neg (by simp), ← show ds.length = dlc.toNat from by simpa using hn]
    exact readData_ok h hd hv
  · have : ds = [] := by simpa using hn
    subst this
    have hc := hexBytes_length hv
    have : cs = [] := by simpa using hc
    subst this
    rfl

/-! ### Where a field stops (R130) -/

/-- The character due at index `p` of `bs` is absent (`TruncatedFrame`) or not hexadecimal (`MalformedFrame`). -/
def StuckAt (bs : List Byte) (p : Nat) (e : ErrKind) : Prop :=
  (bs.length ≤ p ∧ e = .truncatedFrame) ∨ (∃ b, bs[p]? = some b ∧ hexVal b = none ∧ e = .malformedFrame)

theorem nibbleAtPos_stuck {s : State} {bs : List Byte} {e : ErrKind} (h : Holds s bs) (hs : StuckAt bs s.pos e) :
    nibbleAtPos s = .raised (raise e s) := by
  rcases hs with ⟨hp, rfl⟩ | ⟨b, hb, hv, rfl⟩
  · exact nibbleAtPos_absent h hp
  · exact nibbleAtPos_bad h hb hv

/-- Identifier characters good up to where the text sticks, short of `n`. -/
theorem readIdentifier_stuck {good rest bs : List Byte} {vs : List Nibble} {n : Nat} {s : State} {acc : Word32}
    {e : ErrKind} (h : Holds s bs) (hd : bs.drop s.pos = good ++ rest) (hv : hexVals good = some vs)
    (hn : good.length < n) (hs : StuckAt bs (s.pos + good.length) e) :
    readIdentifier n acc s = .raised (raise e (s.withPos (s.pos + good.length))) := by
  induction good generalizing s acc vs n with
  | nil =>
    obtain ⟨m, rfl⟩ : ∃ m, n = m + 1 := ⟨n - 1, by simp only [List.length_nil] at hn; omega⟩
    rw [readIdentifier, nibbleAtPos_stuck h (by simpa using hs), Res.bind_raised]
    rfl
  | cons c cs ih =>
    obtain ⟨m, rfl⟩ : ∃ m, n = m + 1 := ⟨n - 1, by simp only [List.length_cons] at hn; omega⟩
    unfold hexVals at hv
    split at hv
    · next v vs' hc hcs =>
      have hpos : s.pos + 1 + cs.length = s.pos + (c :: cs).length := by simp only [List.length_cons]; omega
      rw [readIdentifier, nibbleAtPos_ok h (drop_head? hd) hc, Res.bind_ok,
        ih (s := s.withPos (s.pos + 1)) (h.withPos _) (by simpa using drop_tail hd) hcs (by simpa using hn)
          (by rw [State.withPos_pos, hpos]; exact hs)]
      rw [State.withPos_pos, hpos]
      rfl
    · cases hv

/-- Data characters good up to where the text sticks, short of `n` pairs. -/
theorem readData_stuck : ∀ {good rest bs : List Byte} {vs : List Nibble} {n : Nat} {s : State} {e : ErrKind},
    Holds s bs → bs.drop s.pos = good ++ rest → hexVals good = some vs → good.length < 2 * n →
    StuckAt bs (s.pos + good.length) e →
    readData n s = .raised (raise e (s.withPos (s.pos + good.length)))
  | _, _, _, _, 0, _, _, _, _, _, hn, _ => by simp at hn
  | [], _, _, _, n + 1, s, _, h, _, _, _, hs => by
    rw [readData, readDataByte, nibbleAtPos_stuck h (by simpa using hs), Res.bind_raised, Res.bind_raised]
    rfl
  | [a], _, _, _, n + 1, s, _, h, hd, hv, _, hs => by
    unfold hexVals at hv
    split at hv
    · next va _ ha _ =>
      rw [readData, readDataByte, nibbleAtPos_ok h (drop_head? hd) ha, Res.bind_ok,
        nibbleAtPos_stuck (h.withPos (s.pos + 1)) (by simpa using hs), Res.bind_raised, Res.bind_raised]
      rfl
    · cases hv
  | a :: b :: cs, rest, bs, vs, n + 1, s, e, h, hd, hv, hn, hs => by
    unfold hexVals at hv
    split at hv
    · next va vs' ha hcs =>
      unfold hexVals at hcs
      split at hcs
      · next vb vs'' hb hcs' =>
        have hpos : s.pos + 2 + cs.length = s.pos + (a :: b :: cs).length := by simp only [List.length_cons]; omega
        rw [readData, readDataByte_ok h hd ha hb, Res.bind_ok,
          readData_stuck (s := s.withPos (s.pos + 2)) (e := e) (h.withPos _) (drop_tail (drop_tail hd)) hcs'
            (by simp only [List.length_cons] at hn; omega) (by rw [State.withPos_pos, hpos]; exact hs),
          Res.bind_raised, State.withPos_pos, hpos]
        rfl
      · cases hcs
    · cases hv

/-- `Decode` on text that sticks in the identifier or at the DLC character. -/
theorem decodeFrame_stuck_early {bs good rest : List Byte} {c : Byte} {vs : List Nibble} {ext rtr : Bool} {e : ErrKind}
    {s : State} (h : Holds s bs) (hbs : bs = c :: (good ++ rest)) (hk : frameKind c = some (ext, rtr))
    (hv : hexVals good = some vs) (hn : good.length ≤ idNibbles ext) (hs : StuckAt bs (good.length + 1) e) :
    decodeFrame s = .raised (raise e (s.withPos (good.length + 1))) := by
  subst hbs
  have hlead : decodeFrame s = decodeFields ext rtr (s.withPos 0) := by
    rw [decodeFrame, (h.withPos 0).lineRead_some (i := 0) (b := c) rfl, Res.bind_ok, hk]
  have hp : 1 + good.length = good.length + 1 := Nat.add_comm _ _
  rw [hlead, decodeFields, show (s.withPos 0).withPos 1 = s.withPos 1 from rfl]
  rcases Nat.lt_or_ge good.length (idNibbles ext) with hlt | hge
  · rw [readIdentifier_stuck (h.withPos 1) (good := good) (rest := rest) (by simp) hv hlt
      (by rw [State.withPos_pos, hp]; exact hs), Res.bind_raised, State.withPos_pos, hp]
    rfl
  · have hl : idNibbles ext = good.length := by omega
    rw [hl, readIdentifier_ok (h.withPos 1) (cs := good) (rest := rest) (by simp) hv, Res.bind_ok, readDlc,
      State.withPos_pos, hp, nibbleAtPos_stuck ((h.withPos 1).withPos _) hs, Res.bind_raised, Res.bind_raised]
    rfl

/-- `Decode` from the DLC character on, the identifier having parsed. -/
theorem decodeFrame_after_identifier {bs ids rest : List Byte} {c : Byte} {vs : List Nibble} {ext rtr : Bool} {s : State}
    (h : Holds s bs) (hbs : bs = c :: (ids ++ rest)) (hk : frameKind c = some (ext, rtr))
    (hn : ids.length = idNibbles ext) (hids : hexVals ids = some vs) :
    decodeFrame s = (readDlc (s.withPos (ids.length + 1))).bind fun dlc s =>
      (readDataField rtr dlc s).bind fun ds s => constructFrame (identValue vs) ext rtr dlc (Data8.ofList ds) s := by
  subst hbs
  rw [decodeFrame, (h.withPos 0).lineRead_some (i := 0) (b := c) rfl, Res.bind_ok, hk]
  simp only [decodeFields]
  rw [show (s.withPos 0).withPos 1 = s.withPos 1 from rfl, ← hn,
    readIdentifier_ok (h.withPos 1) (cs := ids) (rest := rest) (by simp) hids, Res.bind_ok,
    show (s.withPos 1).pos + ids.length = ids.length + 1 from Nat.add_comm _ _]
  rfl

/-- `Decode` on a DLC character above 8 (R124). -/
theorem decodeFrame_dlcRange {bs ids rest : List Byte} {c l : Byte} {vs : List Nibble} {ext rtr : Bool} {dlc : Nibble}
    {s : State} (h : Holds s bs) (hbs : bs = c :: (ids ++ l :: rest)) (hk : frameKind c = some (ext, rtr))
    (hn : ids.length = idNibbles ext) (hids : hexVals ids = some vs) (hl : hexVal l = some dlc) (hlt : dlcMax < dlc) :
    decodeFrame s = .raised (raise .malformedFrame (s.withPos (ids.length + 2))) := by
  rw [decodeFrame_after_identifier h hbs hk hn hids, readDlc_range (h.withPos _) (by simp [hbs]) hl hlt, Res.bind_raised]
  rfl

/-- `Decode` on text that sticks in the data field of a data frame (R125). -/
theorem decodeFrame_stuck_data {bs ids good rest : List Byte} {c l : Byte} {vs ws : List Nibble} {ext : Bool}
    {dlc : Nibble} {e : ErrKind} {s : State} (h : Holds s bs) (hbs : bs = c :: (ids ++ l :: (good ++ rest)))
    (hk : frameKind c = some (ext, false)) (hn : ids.length = idNibbles ext) (hids : hexVals ids = some vs)
    (hl : hexVal l = some dlc) (hdlc : dlc ≤ dlcMax) (hv : hexVals good = some ws) (hlt : good.length < 2 * dlc.toNat)
    (hs : StuckAt bs (ids.length + 2 + good.length) e) :
    decodeFrame s = .raised (raise e (s.withPos (ids.length + 2 + good.length))) := by
  rw [decodeFrame_after_identifier h hbs hk hn hids, readDlc_ok (h.withPos _) (by simp [hbs]) hl hdlc, Res.bind_ok]
  show (readDataField false dlc (s.withPos (ids.length + 2))).bind _ = _
  rw [readDataField, if_neg (by simp),
    readData_stuck (h.withPos (ids.length + 2)) (good := good) (rest := rest) (by simp [hbs]) hv hlt hs, Res.bind_raised]
  rfl

/-! ### What a reader can do on any text

On a chunk `bs` with the cursor at `p`, a reader's result is fixed by `bs` and `p` alone: a `Verdict`, which any state
that holds the chunk then carries out. -/

/-- An answer with the cursor after it, or an error with the cursor where it was met. -/
inductive Verdict (α : Type) where
  | answer (a : α) (q : Nat)
  | error (e : ErrKind) (q : Nat)

/-- A verdict carried out in a state. -/
def Verdict.run {α : Type} (s : State) : Verdict α → Res α
  | .answer a q => .ok a (s.withPos q)
  | .error e q => .raised (raise e (s.withPos q))

/-- Where the cursor may stand: within the chunk, and before its CR if it ends in one. -/
def Fits (bs : List Byte) (p : Nat) : Prop := p ≤ bs.length ∧ (bs.getLast? = some cr → p < bs.length)

/-- The two decode errors; `TruncatedFrame` only on a chunk that does not end in CR (R130). -/
def DecodeErr (bs : List Byte) (e : ErrKind) : Prop :=
  e = .malformedFrame ∨ e = .truncatedFrame ∧ bs.getLast? ≠ some cr

/-- What a verdict from cursor `p` can be: the cursor never moves back and never leaves the chunk (R27). -/
def Verdict.Sound {α : Type} (bs : List Byte) (p : Nat) (P : α → Prop) : Verdict α → Prop
  | .answer a q => P a ∧ p ≤ q ∧ Fits bs q
  | .error e q => p ≤ q ∧ q ≤ bs.length ∧ DecodeErr bs e

/-- The reader `op` at cursor `p` of chunk `bs` carries out one sound verdict, in whatever state. -/
def Uniform {α : Type} (bs : List Byte) (p : Nat) (P : α → Prop) (op : State → Res α) : Prop :=
  ∃ v : Verdict α, v.Sound bs p P ∧ ∀ s, Holds s bs → s.pos = p → op s = v.run s

theorem Uniform.pure {α : Type} {bs : List Byte} {p : Nat} {P : α → Prop} {a : α} (ha : P a) (hp : Fits bs p) :
    Uniform bs p P (fun s => .ok a s) :=
  ⟨.answer a p, ⟨ha, Nat.le_refl _, hp⟩, fun s _ h => by subst h; rfl⟩

theorem Uniform.malformed {α : Type} {bs : List Byte} {p : Nat} {P : α → Prop} (hp : p ≤ bs.length) :
    Uniform bs p P (fun s => (.raised (raise .malformedFrame s) : Res α)) :=
  ⟨.error .malformedFrame p, ⟨Nat.le_refl _, hp, .inl rfl⟩, fun s _ h => by subst h; rfl⟩

theorem Uniform.bind {α β : Type} {bs : List Byte} {p : Nat} {P : α → Prop} {Q : β → Prop} {op : State → Res α}
    {k : α → State → Res β} (ho : Uniform bs p P op)
    (hk : ∀ a q, P a → p ≤ q → Fits bs q → Uniform bs q Q (k a)) : Uniform bs p Q (fun s => (op s).bind k) := by
  obtain ⟨v, hv, hop⟩ := ho
  cases v with
  | error e q => exact ⟨.error e q, hv, fun s h hp => by show (op s).bind k = _; rw [hop s h hp]; rfl⟩
  | answer a q =>
    obtain ⟨ha, hpq, hq⟩ := hv
    obtain ⟨w, hw, hka⟩ := hk a q ha hpq hq
    refine ⟨w, ?_, fun s h hp => ?_⟩
    · cases w with
      | answer b r => exact ⟨hw.1, Nat.le_trans hpq hw.2.1, hw.2.2⟩
      | error e r => exact ⟨Nat.le_trans hpq hw.1, hw.2⟩
    · show (op s).bind k = _
      rw [hop s h hp]
      show k a (s.withPos q) = _
      rw [hka _ (h.withPos q) rfl]
      cases w <;> rfl

theorem nibbleAtPos_uniform {bs : List Byte} {p : Nat} (hf : Fits bs p) :
    Uniform bs p (fun _ => True) nibbleAtPos := by
  by_cases hp : bs.length ≤ p
  · refine ⟨.error .truncatedFrame p, ⟨Nat.le_refl _, hf.1, .inr ⟨rfl, fun hc => ?_⟩⟩, fun s h hs => ?_⟩
    · have := hf.2 hc; omega
    · subst hs; exact nibbleAtPos_absent h hp
  · have hlt : p < bs.length := by omega
    have hb := List.getElem?_eq_getElem hlt
    cases hv : hexVal bs[p] with
    | none =>
      refine ⟨.error .malformedFrame p, ⟨Nat.le_refl _, hf.1, .inl rfl⟩, fun s h hs => ?_⟩
      subst hs; exact nibbleAtPos_bad h hb hv
    | some v =>
      refine ⟨.answer v (p + 1), ⟨trivial, by omega, by omega, fun hc => ?_⟩, fun s h hs => ?_⟩
      · by_contra hlast
        have hpos : p = bs.length - 1 := by omega
        rw [List.getLast?_eq_getElem?, ← hpos, hb] at hc
        have hcr : bs[p] = cr := by simpa using hc
        rw [hcr, hexVal_cr] at hv
        cases hv
      · subst hs; exact nibbleAtPos_ok h hb hv

theorem readIdentifier_uniform {bs : List Byte} {n p : Nat} {acc : Word32} (hf : Fits bs p) :
    Uniform bs p (fun _ => True) (readIdentifier n acc) := by
  induction n generalizing p acc with
  | zero => exact Uniform.pure trivial hf
  | succ n ih => exact (nibbleAtPos_uniform hf).bind fun _ _ _ _ hq => ih hq

theorem readDlc_uniform {bs : List Byte} {p : Nat} (hf : Fits bs p) :
    Uniform bs p (fun v : Nibble => v ≤ dlcMax) readDlc := by
  refine (nibbleAtPos_uniform hf).bind fun v q _ _ hq => ?_
  by_cases hv : dlcMax < v
  · simpa [hv] using Uniform.malformed hq.1
  · simpa [hv] using Uniform.pure (P := fun v : Nibble => v ≤ dlcMax) (BitVec.not_lt.1 hv) hq

theorem readDataByte_uniform {bs : List Byte} {p : Nat} (hf : Fits bs p) :
    Uniform bs p (fun _ => True) readDataByte :=
  (nibbleAtPos_uniform hf).bind fun _ _ _ _ hq =>
    (nibbleAtPos_uniform hq).bind fun _ _ _ _ hr => Uniform.pure trivial hr

theorem readData_uniform {bs : List Byte} {n p : Nat} (hf : Fits bs p) :
    Uniform bs p (fun ds : List Byte => ds.length = n) (readData n) := by
  induction n generalizing p with
  | zero => exact Uniform.pure rfl hf
  | succ n ih =>
    exact (readDataByte_uniform hf).bind fun _ _ _ _ hq =>
      (ih hq).bind fun ds _ hds _ hr => Uniform.pure (by simp [hds]) hr

theorem readDataField_uniform {bs : List Byte} {rtr : Bool} {dlc : Nibble} {p : Nat} (hf : Fits bs p) :
    Uniform bs p (fun ds : List Byte => ds.length = if rtr then 0 else dlc.toNat) (readDataField rtr dlc) := by
  cases rtr
  · exact readData_uniform hf
  · exact Uniform.pure rfl hf

/-! ### `Decode` on any chunk -/

theorem builtFrame_wf {id : Word32} {ext rtr : Bool} {dlc : Nibble} {data : Data8}
    (h : frameAccepted id ext dlc = true) : (builtFrame id ext rtr dlc data).wf = true := by
  simp only [frameAccepted, Bool.and_eq_true, decide_eq_true_eq] at h
  obtain ⟨hd, hid⟩ := h
  cases ext
  · have : BitVec.setWidth 32 (BitVec.setWidth 29 id) ≤ stdIdMax := by
      simp only [stdIdMax, Bool.false_eq_true, if_false, BitVec.le_def, BitVec.toNat_setWidth, BitVec.toNat_ofNat] at hid ⊢
      omega
    simp [CanFrame.wf, builtFrame, hd, this]
  · simp [CanFrame.wf, builtFrame, hd]

theorem builtFrame_zeroFilled (id : Word32) (ext rtr : Bool) (dlc : Nibble) (data : Data8) :
    (builtFrame id ext rtr dlc data).zeroFilled := by
  cases rtr
  · simp [CanFrame.zeroFilled, builtFrame, Data8.keep_keep]
  · simp [CanFrame.zeroFilled, builtFrame]

/-- The fields before construction: one verdict, whatever the state. -/
theorem decodeFields_uniform {bs : List Byte} {ext rtr : Bool} (hf : Fits bs 1) :
    Uniform bs 1 (fun _ : Word32 × Nibble × List Byte => True) fun s =>
      (readIdentifier (idNibbles ext) 0#32 s).bind fun acc s =>
        (readDlc s).bind fun dlc s => (readDataField rtr dlc s).bind fun ds s => .ok (acc, dlc, ds) s :=
  (readIdentifier_uniform hf).bind fun _ _ _ _ hp =>
    (readDlc_uniform hp).bind fun _ _ _ _ hq =>
      (readDataField_uniform hq).bind fun _ _ _ _ hr => Uniform.pure trivial hr

theorem decodeFields_eq (ext rtr : Bool) (s : State) :
    decodeFields ext rtr s =
      ((readIdentifier (idNibbles ext) 0#32 (s.withPos 1)).bind fun acc s =>
        (readDlc s).bind fun dlc s =>
          (readDataField rtr dlc s).bind fun ds s => Res.ok (acc, dlc, ds) s).bind
        fun x s => constructFrame x.1 ext rtr x.2.1 (Data8.ofList x.2.2) s := by
  rw [decodeFields]
  cases readIdentifier (idNibbles ext) 0#32 (s.withPos 1) with
  | raised => rfl
  | stop => rfl
  | ok acc s1 =>
    simp only [Res.bind_ok]
    cases readDlc s1 with
    | raised => rfl
    | stop => rfl
    | ok dlc s2 =>
      simp only [Res.bind_ok]
      cases readDataField rtr dlc s2 <;> rfl

/-- A verdict of `Decode` carried out: `FRAME` and `POS` written, or `ERR` and `POS`. -/
def runDecode (s : State) : Verdict CanFrame → Res Unit
  | .answer f q => .ok () ((s.withPos q).withFrame f)
  | .error e q => .raised ((s.withPos q).withErr e)

theorem decodeFrame_lead {c : Byte} {rest : List Byte} {s : State} (h : Holds s (c :: rest)) :
    decodeFrame s = match frameKind c with
      | none => .raised (raise .malformedFrame (s.withPos 0))
      | some (ext, rtr) => decodeFields ext rtr (s.withPos 0) := by
  rw [decodeFrame, (h.withPos 0).lineRead_some (i := 0) (b := c) rfl, Res.bind_ok]
    <;> (rcases frameKind c with _ | ⟨_, _⟩ <;> rfl)

/-- All `Decode` does on a chunk (R120, R131), the same in every state whose `ERR` is `None`: a well-formed frame of the
leading character's kind is written, or one of the two errors is raised with `FRAME` unwritten. -/
theorem decodeFrame_uniform (bs : List Byte) :
    ∃ v : Verdict CanFrame,
      (match v with
        | .answer f q => q ≤ bs.length ∧ f.wf = true ∧ f.zeroFilled ∧ bs.head?.bind frameKind = some (f.ext, f.rtr)
        | .error e q => q ≤ bs.length ∧ DecodeErr bs e) ∧
      ∀ s, Holds s bs → s.err = .noError → decodeFrame s = runDecode s v := by
  cases bs with
  | nil =>
    refine ⟨.error .truncatedFrame 0, ⟨Nat.le_refl _, .inr ⟨rfl, by simp⟩⟩, fun s h he => ?_⟩
    rw [decodeFrame, (h.withPos 0).lineRead_none (by simp), Res.bind_raised]
    exact congrArg Res.raised (raise_of_noError he)
  | cons c rest =>
    cases hk : frameKind c with
    | none =>
      refine ⟨.error .malformedFrame 0, ⟨by simp, .inl rfl⟩, fun s h he => ?_⟩
      rw [decodeFrame_lead h, hk]
      exact congrArg Res.raised (raise_of_noError he)
    | some k =>
      obtain ⟨ext, rtr⟩ := k
      have hf : Fits (c :: rest) 1 := by
        refine ⟨by simp, fun hc => ?_⟩
        by_contra hlen
        have : rest = [] := by simpa using hlen
        subst this
        simp only [List.getLast?_singleton, Option.some.injEq] at hc
        subst hc
        rw [show frameKind cr = none from by decide] at hk
        cases hk
      obtain ⟨v, hv, hrun⟩ := decodeFields_uniform (ext := ext) (rtr := rtr) hf
      have hdec : ∀ s, Holds s (c :: rest) → decodeFrame s =
          (v.run (s.withPos 1)).bind fun x s => constructFrame x.1 ext rtr x.2.1 (Data8.ofList x.2.2) s := by
        intro s h
        rw [decodeFrame_lead h, hk]
        show decodeFields ext rtr (s.withPos 0) = _
        rw [decodeFields_eq]
        exact congrArg (Res.bind · _) (hrun (s.withPos 1) (h.withPos 1) rfl)
      cases v with
      | error e q =>
        refine ⟨.error e q, ⟨hv.2.1, hv.2.2⟩, fun s h he => ?_⟩
        rw [hdec s h]
        exact congrArg Res.raised (raise_of_noError he)
      | answer x q =>
        cases ha : frameAccepted x.1 ext x.2.1 with
        | false =>
          refine ⟨.error .malformedFrame q, ⟨hv.2.2.1, .inl rfl⟩, fun s h he => ?_⟩
          rw [hdec s h]
          exact (constructFrame_raised ha).trans (congrArg Res.raised (raise_of_noError he))
        | true =>
          refine ⟨.answer (builtFrame x.1 ext rtr x.2.1 (Data8.ofList x.2.2)) q,
            ⟨hv.2.2.1, builtFrame_wf ha, builtFrame_zeroFilled .., hk⟩, fun s h he => ?_⟩
          rw [hdec s h]
          exact constructFrame_ok ha

/-- `Decode` on good text (R129): every field parses, so what is left is `ConstructFrame`, with the cursor after the last
field (R27). -/
theorem decodeFrame_good {bs ids ds_ rest ds : List Byte} {c l : Byte} {vs : List Nibble} {ext rtr : Bool} {dlc : Nibble}
    {s : State} (h : Holds s bs) (hbs : bs = c :: (ids ++ l :: (ds_ ++ rest))) (hk : frameKind c = some (ext, rtr))
    (hn : ids.length = idNibbles ext) (hids : hexVals ids = some vs) (hl : hexVal l = some dlc) (hdlc : dlc ≤ dlcMax)
    (hds : hexBytes ds_ = some ds) (hlen : ds.length = if rtr then 0 else dlc.toNat) :
    decodeFrame s = constructFrame (identValue vs) ext rtr dlc (Data8.ofList ds)
      (s.withPos (ids.length + 2 + ds_.length)) := by
  rw [decodeFrame_after_identifier h hbs hk hn hids, readDlc_ok (h.withPos _) (by simp [hbs]) hl hdlc, Res.bind_ok]
  show (readDataField rtr dlc (s.withPos (ids.length + 2))).bind _ = _
  rw [readDataField_ok (cs := ds_) (rest := rest) (h.withPos _) (by simp [hbs]) hds hlen, Res.bind_ok]
  rfl

/-! ### `Encode` -/

/-- The line of a frame, leading character to CR (R106). -/
def frameLine (f : CanFrame) : List Byte :=
  leadChar f.ext f.rtr ::
    (hexDigits (idNibbles f.ext) (f.id.setWidth 32) ++ hexChar f.dlc :: (dataDigits f ++ [cr]))

theorem dataDigits_length (f : CanFrame) (h : f.dlc ≤ dlcMax) :
    (dataDigits f).length = if f.rtr then 0 else 2 * f.dlc.toNat := by
  have h8 : f.dlc.toNat ≤ 8 := by simpa [dlcMax, BitVec.le_def] using h
  rw [dataDigits]
  split
  · rfl
  · rw [flatMap_byteDigits_length, List.length_take, Data8.toList_length, Nat.min_eq_left h8]

/-- R108. -/
theorem frameLine_length (f : CanFrame) (h : f.dlc ≤ dlcMax) :
    (frameLine f).length = idNibbles f.ext + 3 + (if f.rtr then 0 else 2 * f.dlc.toNat) := by
  have := dataDigits_length f h
  simp only [frameLine, List.length_cons, List.length_append, hexDigits_length, List.length_nil]
  omega

theorem frameLine_length_le (f : CanFrame) (h : f.dlc ≤ dlcMax) : (frameLine f).length ≤ outMax := by
  have h8 : f.dlc.toNat ≤ 8 := by simpa [dlcMax, BitVec.le_def] using h
  rw [frameLine_length f h, outMax, idNibbles]
  split <;> split <;> omega

/-- `Encode` writes the line of `FRAME` from the cursor on, and nothing else (R107). -/
theorem encodeFrame_next {s : State} (h : s.olen + (frameLine s.frame).length ≤ s.cfg.outCap) :
    encodeFrame s =
      .next (s.withOut (s.out.writeAll s.olen (frameLine s.frame)) (s.olen + (frameLine s.frame).length)) := by
  have key : ∀ (bs : List Byte) (m : Memory) (n : Nat), n + bs.length ≤ s.cfg.outCap →
      outAppendAll bs (s.withOut m n) = .next (s.withOut (m.writeAll n bs) (n + bs.length)) :=
    fun bs m n hn => outAppendAll_next (s := s.withOut m n) hn
  have key1 : ∀ (b : Byte) (m : Memory) (n : Nat), n + 1 ≤ s.cfg.outCap →
      outAppend b (s.withOut m n) = .next (s.withOut (m.write n b) (n + 1)) :=
    fun b m n hn => outAppend_next (s := s.withOut m n) hn
  have hlen : (frameLine s.frame).length =
      idNibbles s.frame.ext + 3 + (dataDigits s.frame).length := by
    simp [frameLine]; omega
  rw [hlen] at h ⊢
  rw [encodeFrame, outAppend_next (by omega), andThen_next]
  simp only [State.withOut_frame]
  rw [key _ _ _ (by simp; omega), andThen_next]
  simp only [State.withOut_frame]
  rw [key1 _ _ _ (by simp; omega), andThen_next]
  simp only [State.withOut_frame]
  rw [key _ _ _ (by simp; omega), andThen_next, key1 _ _ _ (by simp; omega)]
  have hm : s.out.writeAll s.olen (frameLine s.frame) =
      ((((s.out.write s.olen (leadChar s.frame.ext s.frame.rtr)).writeAll (s.olen + 1)
        (hexDigits (idNibbles s.frame.ext) (s.frame.id.setWidth 32))).write
          (s.olen + 1 + idNibbles s.frame.ext) (hexChar s.frame.dlc)).writeAll
            (s.olen + 1 + idNibbles s.frame.ext + 1) (dataDigits s.frame)).write
              (s.olen + 1 + idNibbles s.frame.ext + 1 + (dataDigits s.frame).length) cr := by
    simp only [frameLine, Memory.writeAll, Memory.writeAll_append, hexDigits_length]
  rw [hm]
  simp only [hexDigits_length, State.withOut]
  congr 2
  omega

/-- The encode transaction of a well-formed raw frame (R100). -/
theorem encodeTransaction_wf {raw : CanFrame} (h : raw.wf = true) (s : State) :
    let f := builtFrame (raw.id.setWidth 32) raw.ext raw.rtr raw.dlc raw.data
    encodeTransaction raw s =
      .next (((s.withErr .noError).withFrame f).withOut (s.out.writeAll 0 (frameLine f)) (frameLine f).length) := by
  intro f
  have hacc : frameAccepted (raw.id.setWidth 32) raw.ext raw.dlc = true := by rw [frameAccepted_port, h]
  have hdlc : f.dlc ≤ dlcMax := by
    simp only [CanFrame.wf, Bool.and_eq_true, decide_eq_true_eq] at h
    exact h.1
  rw [encodeTransaction, constructFrame_ok hacc, Res.toCaller_ok]
  refine (if_pos (show ((clearForEncode s).withFrame _).err = .noError from rfl)).trans ?_
  rw [encodeFrame_next]
  · show Host.Outcome.next _ = Host.Outcome.next _
    congr 1
    simp [clearForEncode, State.withOut, State.withErr, State.withFrame, f]
  · have := outCap_ge s.cfg
    have hl := frameLine_length_le f hdlc
    simp only [outMax] at hl
    simp only [clearForEncode, State.withFrame_olen, State.withOut_olen, State.withFrame_frame, State.withFrame_cfg,
      State.withOut_cfg, State.withErr_cfg]
    show 0 + (frameLine f).length ≤ _
    omega

/-- The encode transaction of an ill-formed raw frame (R109): nothing emitted. -/
theorem encodeTransaction_illFormed {raw : CanFrame} (h : raw.wf = false) (s : State) :
    encodeTransaction raw s = .next ((s.withErr .malformedFrame).withOut s.out 0) := by
  have hacc : frameAccepted (raw.id.setWidth 32) raw.ext raw.dlc = false := by rw [frameAccepted_port, h]
  rw [encodeTransaction, constructFrame_raised hacc, Res.toCaller_raised, raise_of_noError rfl]
  rfl

end Sys2Proof.Machine
end

