-- ==== Sys2Proof/Laws/Commands.lean ====
section
/-! SUPPORT. What a whole transaction does: the dispatch transaction of each handler, and the one inversion lemma over
all commands from which whole-machine facts follow. -/

namespace Sys2Proof.Machine

/-- What a handler may leave: its bytes in `RESP` from 0, its effect, error, cursor and frame, nothing else touched. -/
def handled (s : State) (line bytes : List Byte) (fx : Option Effect) (err : ErrKind) (pos : Nat) (frame : CanFrame) :
    State :=
  { s with
    line := Memory.ofBytes line
    len := line.length
    resp := s.resp.writeAll 0 bytes
    rlen := bytes.length
    fx := fx
    err := err
    pos := pos
    frame := frame
    fsm := .dispatching }

/-- The state a handler is given: the chunk latched, the registers cleared, `FSM` in `Dispatching`. -/
def begun (line : List Byte) (s : State) : State := handled s line [] none .noError s.pos s.frame

theorem begun_eq (line : List Byte) (s : State) : (beginDispatch line s).withFsm .dispatching = begun line s := by
  simp [begun, handled, beginDispatch, clearForDispatch, State.withResp, State.withFsm, State.withLine, State.withErr,
    State.withFx, Memory.writeAll]

theorem begun_holds (line : List Byte) (s : State) : Holds (begun line s) line := ⟨rfl, rfl⟩

/-- A handler whose bytes leave room for the terminator makes a whole dispatch transaction. -/
theorem runCommand_next {line bytes : List Byte} {h : State → Out} {s : State} {fx : Option Effect} {err : ErrKind}
    {pos : Nat} {frame : CanFrame} (hl : line.length ≤ lineMax) (hb : bytes.length < s.cfg.respCap)
    (hh : h (begun line s) = .next (handled s line bytes fx err pos frame)) :
    runCommand line h s = .next (afterDispatch s line bytes fx err pos frame) := by
  rw [runCommand_eq hl, begun_eq, hh, andThen_next, endDispatch_next (by simpa [handled] using hb)]
  simp [handled, afterDispatch, State.withResp, State.withFsm, Memory.writeAll_append, Memory.writeAll]

/-- A handler that fills `RESP` to its capacity leaves no room for the terminator. -/
theorem runCommand_full {line bytes : List Byte} {h : State → Out} {s : State} {fx : Option Effect} {err : ErrKind}
    {pos : Nat} {frame : CanFrame} (hl : line.length ≤ lineMax) (hb : s.cfg.respCap ≤ bytes.length)
    (hh : h (begun line s) = .next (handled s line bytes fx err pos frame)) :
    runCommand line h s = .refused .responseFull := by
  rw [runCommand_eq hl, begun_eq, hh, andThen_next, endDispatch_full (by simpa [handled] using hb)]

theorem runCommand_refused {line : List Byte} {h : State → Out} {s : State} {r : Refusal} (hl : line.length ≤ lineMax)
    (hh : h (begun line s) = .refused r) : runCommand line h s = .refused r := by
  rw [runCommand_eq hl, begun_eq, hh, andThen_refused]

/-! ### The handlers -/

theorem issueOnly_begun (e : Effect) (line : List Byte) (s : State) :
    issueOnly e (begun line s) = .next (handled s line [] (some e) .noError s.pos s.frame) := by
  simp [issueOnly, issue, begun, handled, State.withFx, Memory.writeAll]

/-- Handler `S` on a preset digit, and on anything else (R160). -/
theorem handleSetup_begun {line : List Byte} {s : State} (hl : 1 < line.length) :
    handleSetup (begun line s) =
      match (line)[1]?.bind hexVal with
      | none => .next (handled s line [] none .malformedFrame 1 s.frame)
      | some n =>
        if presetMax < n then .next (handled s line [] none .malformedFrame 1 s.frame)
        else .next (handled s line [] (some (.setup n)) .noError 1 s.frame) := by
  rw [handleSetup, readPreset, ((begun_holds line s).withPos 1).lineRead_some (List.getElem?_eq_getElem hl), Res.bind_ok,
    List.getElem?_eq_getElem hl, Option.bind_some]
  cases hexVal (line)[1] with
  | none => simp [begun, handled, raise, State.withPos, State.withErr]
  | some n =>
    by_cases hn : presetMax < n <;> simp [hn, begun, handled, raise, issue, State.withPos, State.withErr, State.withFx]

/-- The configuration handler hands over the letter and the bytes before the final CR (R198). -/
theorem handleConfig_begun (c : Byte) (args : List Byte) (s : State) :
    handleConfig (begun (commandLine c args) s) =
      .next (handled s (commandLine c args) [] (some (.config c args)) .noError s.pos s.frame) := by
  have h := begun_holds (commandLine c args) s
  have hlen : (begun (commandLine c args) s).len - 2 = args.length := by simp [begun, handled]
  rw [handleConfig, readConfigArgs, h.lineRead_some (i := 0) (b := c) rfl, Res.bind_ok, hlen,
    h.lineReadMany (by simp; omega), Res.bind_ok]
  have : List.take args.length (List.drop 1 (commandLine c args)) = args := by simp [commandLine]
  rw [this]
  simp [issue, begun, handled, State.withFx]

theorem respAppendAll_begun {bs line : List Byte} {s : State} {fx : Option Effect} (hb : bs.length ≤ s.cfg.respCap) :
    respAppendAll bs ((begun line s).withFx fx) = .next (handled s line bs fx .noError s.pos s.frame) := by
  rw [respAppendAll_next (by simpa [begun, handled] using hb)]
  simp [begun, handled, State.withResp, State.withFx, Memory.writeAll]

theorem handleVersion_begun (line : List Byte) (s : State) :
    handleVersion (begun line s) = .next (handled s line s.cfg.versionBytes none .noError s.pos s.frame) := by
  have h := respAppendAll_begun (bs := s.cfg.versionBytes) (line := line) (fx := none)
    (Nat.le_of_lt (versionBytes_lt_respCap s.cfg))
  simpa [handleVersion, begun, handled, State.withFx] using h

theorem handleDeviceIdent_begun (line : List Byte) (s : State) :
    handleDeviceIdent (begun line s) =
      .next (handled s line (hexDigits 8 s.deviceId) (some .devId) .noError s.pos s.frame) :=
  respAppendAll_begun (by have := respCap_ge_nine s.cfg; rw [hexDigits_length]; omega)

theorem handleStatus_begun {line : List Byte} {s : State} (hb : s.statusBytes.length ≤ s.cfg.respCap) :
    handleStatus (begun line s) = .next (handled s line s.statusBytes (some .status) .noError s.pos s.frame) :=
  respAppendAll_begun hb

theorem handleStatus_full {line : List Byte} {s : State} (hb : s.cfg.respCap < s.statusBytes.length) :
    handleStatus (begun line s) = .refused .responseFull :=
  respAppendAll_full (by simp [issue, begun, handled]) (by simpa [issue, begun, handled] using hb)

/-- The frame handler carries out the decoder's verdict on the chunk: transmit what was written, or swallow (R170). -/
theorem handleFrame_begun {line : List Byte} {v : Verdict CanFrame}
    (hv : ∀ s, Holds s line → s.err = .noError → decodeFrame s = runDecode s v) (he : ∀ e q, v = .error e q → e ≠ .noError)
    (s : State) :
    handleFrame (begun line s) =
      match v with
      | .answer f q => .next (handled s line [] (some (.transmit f)) .noError q f)
      | .error e q => .next (handled s line [] none e q s.frame) := by
  rw [handleFrame, hv _ (begun_holds line s) rfl]
  cases v with
  | answer f q =>
    simp [runDecode, begun, handled, issue, State.withPos, State.withFrame, State.withFx]
  | error e q =>
    simp [runDecode, begun, handled, State.withPos, State.withErr, he e q rfl]

/-! ### Every command -/

/-- What a command shows and leaves, beside the line: its bytes, effect, error, cursor and frame. `keeps` marks the
registers it does not write. -/
structure CommandResult where
  bytes : List Byte
  fx : Option Effect
  err : ErrKind
  pos : Option Nat
  frame : Option CanFrame

/-- The result carried out in a state. -/
def CommandResult.after (r : CommandResult) (s : State) (line : List Byte) : State :=
  afterDispatch s line r.bytes r.fx r.err (r.pos.getD s.pos) (r.frame.getD s.frame)

/-- What every command's result keeps to. -/
structure CommandResult.Sound (r : CommandResult) (c : Byte) (s : State) : Prop where
  bytes : r.bytes = [] ∨ (c = 0x56#8 ∧ r.bytes = s.cfg.versionBytes) ∨ (c = 0x46#8 ∧ r.bytes = s.statusBytes) ∨
    (c = 0x4E#8 ∧ r.bytes = hexDigits 8 s.deviceId)
  pos : ∀ p, r.pos = some p → p ≤ lineMax
  frame : ∀ f, r.frame = some f → f.wf = true ∧ f.zeroFilled ∧ r.fx = some (.transmit f) ∧
    frameKind c = some (f.ext, f.rtr)
  err : r.err = .noError ∨ (r.err = .malformedFrame ∧ r.bytes = [] ∧ r.fx = none ∧ r.frame = none)
  transmit : ∀ f, r.fx = some (.transmit f) → r.frame = some f
  setup : ∀ n, r.fx = some (.setup n) → n ≤ presetMax
  sends : ∀ k, frameKind c = some k → r.bytes = [] ∧ (r.err = .noError → ∃ f, r.frame = some f)

/-- Two states that hold the same build and inputs. -/
def SameInputs (s t : State) : Prop := t.cfg = s.cfg ∧ t.deviceId = s.deviceId ∧ t.statusBytes = s.statusBytes

/-- What is said of one command's whole transaction `run`: it has one sound result, the same in every state with the build
and inputs of `s`; it completes when the result leaves room for the terminator and is refused otherwise. -/
def Shows (c : Byte) (line : List Byte) (run : State → Out) (s : State) : Prop :=
  ∃ r : CommandResult, r.Sound c s ∧ ∀ t, SameInputs s t →
    (r.bytes.length < t.cfg.respCap → run t = .next (r.after t line)) ∧
    (t.cfg.respCap ≤ r.bytes.length → run t = .refused .responseFull)

/-- A result without bytes always leaves room. -/
theorem Shows.silent {c : Byte} {line : List Byte} {run : State → Out} {s : State} (r : CommandResult)
    (hs : r.Sound c s) (hb : r.bytes = []) (h : ∀ t, run t = .next (r.after t line)) : Shows c line run s :=
  ⟨r, hs, fun t _ => ⟨fun _ => h t, fun hc => by
    rw [hb] at hc
    have hp := respCap_pos t.cfg
    exact absurd (Nat.le_zero.1 hc) (by omega)⟩⟩

theorem issueOnly_shows {c : Byte} {line : List Byte} (hl : line.length ≤ lineMax) (e : Effect) (s : State)
    (hk : frameKind c = none) (ht : ∀ f, e ≠ .transmit f) (hn : ∀ n, e ≠ .setup n) :
    Shows c line (runCommand line (issueOnly e)) s :=
  .silent ⟨[], some e, .noError, none, none⟩
    { bytes := .inl rfl, pos := by simp, frame := by simp, err := .inl rfl,
      transmit := fun f hf => absurd (Option.some.inj hf) (ht f),
      setup := fun n hf => absurd (Option.some.inj hf) (hn n), sends := by simp [hk] }
    rfl fun t => runCommand_next hl (respCap_pos _) (issueOnly_begun e line t)

theorem handleConfig_shows {c : Byte} {args : List Byte} (hl : (commandLine c args).length ≤ lineMax) (s : State)
    (hk : frameKind c = none) :
    Shows c (commandLine c args) (runCommand (commandLine c args) handleConfig) s :=
  .silent ⟨[], some (.config c args), .noError, none, none⟩
    { bytes := .inl rfl, pos := by simp, frame := by simp, err := .inl rfl, transmit := by simp, setup := by simp,
      sends := by simp [hk] }
    rfl fun t => runCommand_next hl (respCap_pos _) (handleConfig_begun c args t)

theorem handleFrame_shows {c : Byte} {args : List Byte} (hl : (commandLine c args).length ≤ lineMax) (s : State) :
    Shows c (commandLine c args) (runCommand (commandLine c args) handleFrame) s := by
  obtain ⟨v, hv, hrun⟩ := decodeFrame_uniform (commandLine c args)
  cases v with
  | answer f q =>
    obtain ⟨hq, hwf, hz, hk⟩ := hv
    exact .silent ⟨[], some (.transmit f), .noError, some q, some f⟩
      { bytes := .inl rfl, pos := fun p hp => by cases hp; exact Nat.le_trans hq hl,
        frame := fun g hg => by cases hg; exact ⟨hwf, hz, rfl, hk⟩, err := .inl rfl, transmit := by simp,
        setup := by simp, sends := by simp }
      rfl fun t => runCommand_next hl (respCap_pos _) (handleFrame_begun hrun (by simp) t)
  | error e q =>
    obtain ⟨hq, he⟩ := hv
    obtain rfl : e = .malformedFrame := he.resolve_right fun h => h.2 (commandLine_getLast? c args)
    exact .silent ⟨[], none, .malformedFrame, some q, none⟩
      { bytes := .inl rfl, pos := fun p hp => by cases hp; exact Nat.le_trans hq hl, frame := by simp,
        err := .inr ⟨rfl, rfl, rfl, rfl⟩, transmit := by simp, setup := by simp, sends := by simp }
      rfl fun t => runCommand_next hl (respCap_pos _) (handleFrame_begun hrun (by rintro _ _ ⟨⟩; simp) t)

theorem handleSetup_shows {line : List Byte} (hl : line.length ≤ lineMax) (h1 : 1 < line.length) (s : State) :
    Shows 0x53#8 line (runCommand line handleSetup) s := by
  have bad : (∀ t, handleSetup (begun line t) = .next (handled t line [] none .malformedFrame 1 t.frame)) →
      Shows 0x53#8 line (runCommand line handleSetup) s := fun h =>
    .silent ⟨[], none, .malformedFrame, some 1, none⟩
      { bytes := .inl rfl, pos := by simp [lineMax], frame := by simp, err := .inr ⟨rfl, rfl, rfl, rfl⟩,
        transmit := by simp, setup := by simp, sends := by simp }
      rfl fun t => runCommand_next hl (respCap_pos _) (h t)
  cases hn : (line)[1]?.bind hexVal with
  | none => exact bad fun t => by rw [handleSetup_begun h1, hn]
  | some n =>
    by_cases hle : presetMax < n
    · exact bad fun t => by rw [handleSetup_begun h1, hn]; exact if_pos hle
    · exact .silent ⟨[], some (.setup n), .noError, some 1, none⟩
        { bytes := .inl rfl, pos := by simp [lineMax], frame := by simp, err := .inl rfl, transmit := by simp,
          setup := fun m hm => by cases hm; exact BitVec.not_lt.1 hle, sends := fun k hk => by cases hk }
        rfl fun t => runCommand_next hl (respCap_pos _) (by rw [handleSetup_begun h1, hn]; exact if_neg hle)

theorem handleStatus_shows {line : List Byte} (hl : line.length ≤ lineMax) (s : State) :
    Shows 0x46#8 line (runCommand line handleStatus) s := by
  refine ⟨⟨s.statusBytes, some .status, .noError, none, none⟩,
    { bytes := .inr (.inr (.inl ⟨rfl, rfl⟩)), pos := by simp, frame := by simp, err := .inl rfl, transmit := by simp,
      setup := by simp, sends := fun k hk => by cases hk }, fun t ht => ?_⟩
  simp only [← ht.2.2]
  refine ⟨fun hb => runCommand_next hl hb (handleStatus_begun (Nat.le_of_lt hb)), fun hb => ?_⟩
  rcases Nat.lt_or_ge t.cfg.respCap t.statusBytes.length with hlt | hge
  · exact runCommand_refused hl (handleStatus_full hlt)
  · exact runCommand_full hl hb (handleStatus_begun hge)

theorem handleVersion_shows {line : List Byte} (hl : line.length ≤ lineMax) (s : State) :
    Shows 0x56#8 line (runCommand line handleVersion) s := by
  refine ⟨⟨s.cfg.versionBytes, none, .noError, none, none⟩,
    { bytes := .inr (.inl ⟨rfl, rfl⟩), pos := by simp, frame := by simp, err := .inl rfl, transmit := by simp,
      setup := by simp, sends := fun k hk => by cases hk }, fun t ht => ?_⟩
  simp only [← ht.1]
  exact ⟨fun hb => runCommand_next hl hb (handleVersion_begun _ t),
    fun hb => absurd (versionBytes_lt_respCap t.cfg) (Nat.not_lt.2 hb)⟩

theorem handleDeviceIdent_shows {line : List Byte} (hl : line.length ≤ lineMax) (s : State) :
    Shows 0x4E#8 line (runCommand line handleDeviceIdent) s := by
  refine ⟨⟨hexDigits 8 s.deviceId, some .devId, .noError, none, none⟩,
    { bytes := .inr (.inr (.inr ⟨rfl, rfl⟩)), pos := by simp, frame := by simp, err := .inl rfl, transmit := by simp,
      setup := by simp, sends := fun k hk => by cases hk }, fun t ht => ?_⟩
  simp only [← ht.2.1]
  refine ⟨fun hb => runCommand_next hl hb (handleDeviceIdent_begun _ t), fun hb => ?_⟩
  have := respCap_ge_nine t.cfg
  rw [hexDigits_length] at hb
  omega

/-- The inversion lemma of the dispatch port: every command whose line fits a chunk. -/
theorem exec_command {c : Byte} {mk : List Byte → Instr} (hc : commandTable c = some mk) {args : List Byte}
    (hl : args.length + 2 ≤ lineMax) (s : State) : Shows c (commandLine c args) (exec (mk args)) s := by
  have hlen : (commandLine c args).length ≤ lineMax := by simpa using hl
  have hm := lookupRow_mem hc
  simp only [commandRows, List.cons_append, List.nil_append, List.mem_cons, Prod.mk.injEq, List.not_mem_nil, or_false]
    at hm
  rcases hm with h | h | h | h | h | h | h | h | h | h | h | h | h | h | h | h | h | h | h | h | h <;>
    obtain ⟨rfl, rfl⟩ := h
  · exact handleSetup_shows hlen (by simp) s
  · exact handleConfig_shows hlen s rfl
  · exact issueOnly_shows hlen .openBus s rfl (by simp) (by simp)
  · exact issueOnly_shows hlen .listen s rfl (by simp) (by simp)
  · exact issueOnly_shows hlen .closeBus s rfl (by simp) (by simp)
  · exact handleFrame_shows hlen s
  · exact handleFrame_shows hlen s
  · exact handleFrame_shows hlen s
  · exact handleFrame_shows hlen s
  · exact issueOnly_shows hlen .poll s rfl (by simp) (by simp)
  · exact issueOnly_shows hlen .auto s rfl (by simp) (by simp)
  · exact handleStatus_shows hlen s
  · exact handleConfig_shows hlen s rfl
  · exact handleConfig_shows hlen s rfl
  · exact handleConfig_shows hlen s rfl
  · exact handleConfig_shows hlen s rfl
  · exact handleConfig_shows hlen s rfl
  · exact handleVersion_shows hlen s
  · exact handleDeviceIdent_shows hlen s
  · exact handleConfig_shows hlen s rfl
  · exact handleConfig_shows hlen s rfl

/-- The four letters `Decode` knows run the frame handler (R170). -/
theorem exec_frameCommand {c : Byte} {mk : List Byte → Instr} {k : Bool × Bool} (hc : commandTable c = some mk)
    (hk : frameKind c = some k) (args : List Byte) (s : State) :
    exec (mk args) s = runCommand (commandLine c args) handleFrame s := by
  have hm := lookupRow_mem hc
  simp only [commandRows, List.cons_append, List.nil_append, List.mem_cons, Prod.mk.injEq, List.not_mem_nil, or_false]
    at hm
  rcases hm with h | h | h | h | h | h | h | h | h | h | h | h | h | h | h | h | h | h | h | h | h <;>
    obtain ⟨rfl, rfl⟩ := h <;> first | rfl | cases hk

/-- A frame line on which `Decode` answers a frame. -/
theorem runFrame_answer {line : List Byte} {s : State} {f : CanFrame} {q : Nat} (hl : line.length ≤ lineMax)
    (h : decodeFrame (begun line s) = .ok () (((begun line s).withPos q).withFrame f)) :
    runCommand line handleFrame s = .next (afterDispatch s line [] (some (.transmit f)) .noError q f) := by
  refine runCommand_next hl (respCap_pos _) ?_
  rw [handleFrame, h]
  simp [begun, handled, issue, State.withPos, State.withFrame, State.withFx]

/-- A frame line on which `Decode` raises. -/
theorem runFrame_error {line : List Byte} {s : State} {e : ErrKind} {q : Nat} (hl : line.length ≤ lineMax)
    (he : e ≠ .noError) (h : decodeFrame (begun line s) = .raised (raise e ((begun line s).withPos q))) :
    runCommand line handleFrame s = .next (afterDispatch s line [] none e q s.frame) := by
  refine runCommand_next hl (respCap_pos _) ?_
  rw [handleFrame, h]
  simp [begun, handled, raise, State.withPos, State.withErr, he]

/-! ### Chunks that select no handler -/

theorem rejectIncomplete_next (line : List Byte) (s : State) :
    rejectIncomplete line s = .next (afterDispatch s line [] none .incompleteLine s.pos s.frame) := by
  rw [rejectIncomplete, raise_of_noError (by simp [beginDispatch, clearForDispatch]), respAppend_next (by simpa [beginDispatch, clearForDispatch] using respCap_pos s.cfg)]
  simp [beginDispatch, clearForDispatch, afterDispatch, State.withResp, State.withFsm, State.withLine,
    State.withErr, State.withFx, Memory.writeAll]

theorem rejectUnknown_next (line : List Byte) (s : State) :
    rejectUnknown line s = .next (afterDispatch s line [] none .unknownCommand s.pos s.frame) := by
  rw [rejectUnknown, begun_eq, raise_of_noError (by simp [begun, handled]),
    endDispatch_next (by simpa [begun, handled] using respCap_pos s.cfg)]
  simp [begun, handled, afterDispatch, State.withResp, State.withFsm, State.withErr, Memory.writeAll]

/-! ### The encode port -/

/-- Every emitted form is the encode transaction of its raw frame. -/
theorem exec_emitted {i : Instr} {raw : CanFrame} (h : i.rawFrame = some raw) (s : State) :
    exec i s = encodeTransaction raw s := by
  cases i <;> first | (cases h; rfl) | cases h

/-- An emitted form's bytes are the line of its frame. -/
theorem encode_emitted {i : Instr} {raw : CanFrame} (h : i.rawFrame = some raw) : encode i = frameLine raw := by
  cases i <;> first | (cases h; rfl) | cases h

/-- Zero fill does not show in the line. -/
theorem frameLine_built (f : CanFrame) (h : f.dlc ≤ dlcMax) :
    frameLine (builtFrame (f.id.setWidth 32) f.ext f.rtr f.dlc f.data) = frameLine f := by
  have h8 : f.dlc.toNat ≤ 8 := by simpa [dlcMax, BitVec.le_def] using h
  have hid : BitVec.setWidth 29 (BitVec.setWidth 32 f.id) = f.id := by simp
  have hdata : dataDigits (builtFrame (f.id.setWidth 32) f.ext f.rtr f.dlc f.data) = dataDigits f := by
    cases hr : f.rtr
    · simp [dataDigits, builtFrame, hr, Data8.take_keep _ _ h8]
    · simp [dataDigits, builtFrame, hr]
  rw [frameLine, hdata, builtFrame, hid]
  rfl

end Sys2Proof.Machine
end

