-- ==== Sys2Proof/Laws/PerInstr.lean ====
section
/-! SUPPORT. The facts said of every instruction as syntax, one lemma per constructor. -/

namespace Sys2Proof.Laws.LineFits

/-- A well-formed instruction's line fits one chunk and ends in CR (R70, R108): what the encode port emits can come back at
the dispatch port. -/
def Statement (i : Instr) : Prop := i.wf = true → (encode i).length ≤ lineMax ∧ (encode i).getLast? = some cr

theorem of_command (c : Byte) (args : List Byte) (h : argsFit args = true) :
    (commandLine c args).length ≤ lineMax ∧ (commandLine c args).getLast? = some cr :=
  ⟨by rw [commandLine_length]; simpa [argsFit] using h, commandLine_getLast? c args⟩

theorem of_frame {i : Instr} {raw : CanFrame} (hr : i.rawFrame = some raw) (h : raw.wf = true) :
    (encode i).length ≤ lineMax ∧ (encode i).getLast? = some cr := by
  have hd : raw.dlc ≤ dlcMax := by
    simp only [CanFrame.wf, Bool.and_eq_true, decide_eq_true_eq] at h
    exact h.1
  have hline : Machine.frameLine raw = (Machine.leadChar raw.ext raw.rtr ::
      (hexDigits (idNibbles raw.ext) (raw.id.setWidth 32) ++ hexChar raw.dlc :: Machine.dataDigits raw)) ++ [cr] := by
    simp [Machine.frameLine]
  rw [Machine.encode_emitted hr]
  refine ⟨Nat.le_trans (Machine.frameLine_length_le raw hd) (by decide), ?_⟩
  rw [hline, List.getLast?_concat]

theorem setup (args : List Byte) : Statement (.setup args) := of_command _ args
theorem cfgLowerS (args : List Byte) : Statement (.cfgLowerS args) := of_command _ args
theorem openBus (args : List Byte) : Statement (.openBus args) := of_command _ args
theorem listenBus (args : List Byte) : Statement (.listenBus args) := of_command _ args
theorem closeBus (args : List Byte) : Statement (.closeBus args) := of_command _ args
theorem txStdData (args : List Byte) : Statement (.txStdData args) := of_command _ args
theorem txExtData (args : List Byte) : Statement (.txExtData args) := of_command _ args
theorem txStdRemote (args : List Byte) : Statement (.txStdRemote args) := of_command _ args
theorem txExtRemote (args : List Byte) : Statement (.txExtRemote args) := of_command _ args
theorem pollMode (args : List Byte) : Statement (.pollMode args) := of_command _ args
theorem autoMode (args : List Byte) : Statement (.autoMode args) := of_command _ args
theorem readStatus (args : List Byte) : Statement (.readStatus args) := of_command _ args
theorem cfgX (args : List Byte) : Statement (.cfgX args) := of_command _ args
theorem cfgW (args : List Byte) : Statement (.cfgW args) := of_command _ args
theorem cfgUpperM (args : List Byte) : Statement (.cfgUpperM args) := of_command _ args
theorem cfgLowerM (args : List Byte) : Statement (.cfgLowerM args) := of_command _ args
theorem cfgU (args : List Byte) : Statement (.cfgU args) := of_command _ args
theorem version (args : List Byte) : Statement (.version args) := of_command _ args
theorem deviceIdent (args : List Byte) : Statement (.deviceIdent args) := of_command _ args
theorem cfgZ (args : List Byte) : Statement (.cfgZ args) := of_command _ args
theorem cfgQ (args : List Byte) : Statement (.cfgQ args) := of_command _ args
theorem emitStdData (id : BitVec 29) (dlc : Nibble) (data : Data8) : Statement (.emitStdData id dlc data) := of_frame rfl
theorem emitExtData (id : BitVec 29) (dlc : Nibble) (data : Data8) : Statement (.emitExtData id dlc data) := of_frame rfl
theorem emitStdRemote (id : BitVec 29) (dlc : Nibble) (data : Data8) : Statement (.emitStdRemote id dlc data) := of_frame rfl
theorem emitExtRemote (id : BitVec 29) (dlc : Nibble) (data : Data8) : Statement (.emitExtRemote id dlc data) := of_frame rfl

end Sys2Proof.Laws.LineFits
end

