-- ==== Sys2Proof/Laws/RoundTrip.lean ====
section
/-! SUPPORT. The text of a line and the values it stands for, both ways, and `Decode` read backward: what a success says
about the chunk. -/

namespace Sys2Proof.Machine

/-! ### The nibbles of a value and the value of nibbles -/

/-- The `n` low nibbles of a value, most significant first. -/
def nibblesOf : Nat → Word32 → List Nibble
  | 0, _ => []
  | n + 1, v => nibbleAt v n :: nibblesOf n v

theorem hexVals_hexDigits (n : Nat) (v : Word32) : hexVals (hexDigits n v) = some (nibblesOf n v) := by
  induction n with
  | zero => rfl
  | succ n ih => simp [hexDigits, hexVals, ih, nibblesOf]

theorem nibbleAt_toNat (v : Word32) (k : Nat) : (nibbleAt v k).toNat = v.toNat / 16 ^ k % 16 := by
  have h16 : (16 : Nat) ^ k = 2 ^ (4 * k) := by rw [Nat.pow_mul]
  rw [nibbleAt, BitVec.extractLsb'_toNat, Nat.shiftRight_eq_div_pow, h16]

/-- One turn of the accumulator, in numbers. -/
theorem identValue_step (acc : Word32) (v : Nibble) :
    (acc * 16#32 + v.setWidth 32).toNat = (acc.toNat * 16 + v.toNat) % 2 ^ 32 := by
  have := v.isLt
  simp only [BitVec.toNat_add, BitVec.toNat_mul, BitVec.toNat_setWidth, BitVec.toNat_ofNat]
  omega

/-- The accumulator in numbers, where nothing overflows (R77: at most eight nibbles in 32 bits). -/
theorem foldl_toNat (vs : List Nibble) (acc : Word32) (h : (acc.toNat + 1) * 16 ^ vs.length ≤ 2 ^ 32) :
    (vs.foldl (fun acc v => acc * 16#32 + v.setWidth 32) acc).toNat =
      vs.foldl (fun n v => n * 16 + v.toNat) acc.toNat := by
  induction vs generalizing acc with
  | nil => rfl
  | cons v vs ih =>
    have hv := v.isLt
    have hpos : 1 ≤ 16 ^ vs.length := Nat.one_le_pow _ _ (by omega)
    simp only [List.length_cons, Nat.pow_succ] at h
    have h1 : (acc.toNat + 1) * 16 * 16 ^ vs.length ≤ 2 ^ 32 := by
      rw [Nat.mul_assoc, Nat.mul_comm 16]; exact h
    have h2 : (acc.toNat + 1) * 16 ≤ 2 ^ 32 := Nat.le_trans (Nat.le_mul_of_pos_right _ hpos) h1
    have hstep : (acc * 16#32 + v.setWidth 32).toNat = acc.toNat * 16 + v.toNat := by
      rw [identValue_step]; exact Nat.mod_eq_of_lt (by omega)
    simp only [List.foldl_cons]
    rw [ih, hstep]
    rw [hstep]
    exact Nat.le_trans (Nat.mul_le_mul_right _ (by omega)) h1

theorem identValue_toNat {vs : List Nibble} (h : vs.length ≤ 8) :
    (identValue vs).toNat = vs.foldl (fun n v => n * 16 + v.toNat) 0 := by
  have : 16 ^ vs.length ≤ 16 ^ 8 := Nat.pow_le_pow_right (by omega) h
  have h0 : ((0#32 : Word32).toNat + 1) * 16 ^ vs.length ≤ 2 ^ 32 := by simpa using this
  simpa [identValue] using foldl_toNat vs 0#32 h0

theorem foldl_nibblesOf (n : Nat) (v : Word32) (k : Nat) :
    (nibblesOf n v).foldl (fun n v => n * 16 + v.toNat) k = k * 16 ^ n + v.toNat % 16 ^ n := by
  induction n generalizing k with
  | zero => simp [nibblesOf, Nat.mod_one]
  | succ n ih =>
    rw [nibblesOf, List.foldl_cons, ih, nibbleAt_toNat, Nat.pow_succ, Nat.mod_mul]
    ring

@[simp] theorem nibblesOf_length (n : Nat) (v : Word32) : (nibblesOf n v).length = n := by
  induction n with
  | zero => rfl
  | succ n ih => simp [nibblesOf, ih]

/-- The digits of a value that fits them, read back (R77, R78). -/
theorem identValue_nibblesOf {n : Nat} {v : Word32} (hn : n ≤ 8) (hv : v.toNat < 16 ^ n) :
    identValue (nibblesOf n v) = v := by
  apply BitVec.eq_of_toNat_eq
  rw [identValue_toNat (by simpa using hn), foldl_nibblesOf, Nat.mod_eq_of_lt hv]
  simp

theorem foldl_append_lt (vs : List Nibble) (k : Nat) :
    ∃ r, r < 16 ^ vs.length ∧ vs.foldl (fun n v => n * 16 + v.toNat) k = k * 16 ^ vs.length + r := by
  induction vs generalizing k with
  | nil => exact ⟨0, by simp, by simp⟩
  | cons v vs ih =>
    obtain ⟨r, hr, he⟩ := ih (k * 16 + v.toNat)
    have hv := v.isLt
    refine ⟨v.toNat * 16 ^ vs.length + r, ?_, ?_⟩
    · rw [List.length_cons, Nat.pow_succ]
      have : (v.toNat + 1) * 16 ^ vs.length ≤ 16 * 16 ^ vs.length := Nat.mul_le_mul_right _ (by omega)
      have h2 : (v.toNat + 1) * 16 ^ vs.length = v.toNat * 16 ^ vs.length + 16 ^ vs.length := by ring
      omega
    · rw [List.foldl_cons, he, List.length_cons, Nat.pow_succ]; ring

/-- The nibbles of a value of nibbles are those nibbles. -/
theorem nibblesOf_eq {vs : List Nibble} {v : Word32} {k : Nat}
    (h : v.toNat = vs.foldl (fun n v => n * 16 + v.toNat) k) : nibblesOf vs.length v = vs := by
  induction vs generalizing k with
  | nil => rfl
  | cons x vs ih =>
    rw [List.length_cons, nibblesOf, ih (k := k * 16 + x.toNat) h]
    obtain ⟨r, hr, he⟩ := foldl_append_lt vs (k * 16 + x.toNat)
    have hx := x.isLt
    congr 1
    apply BitVec.eq_of_toNat_eq
    rw [nibbleAt_toNat, h, List.foldl_cons, he, Nat.mul_comm, Nat.mul_add_div (Nat.pow_pos (by omega)),
      Nat.div_eq_of_lt hr]
    omega

/-- A character and its value, up to the case of letters (R76). -/
theorem hexChar_hexVal {b : Byte} {n : Nibble} (h : hexVal b = some n) : hexChar n = upperHex b := by
  revert b n; decide

theorem map_hexChar {cs : List Byte} {vs : List Nibble} (h : hexVals cs = some vs) :
    vs.map hexChar = cs.map upperHex := by
  induction cs generalizing vs with
  | nil => cases h; rfl
  | cons c cs ih =>
    unfold hexVals at h
    split at h
    · next hc hcs => cases h; simp [hexChar_hexVal hc, ih hcs]
    · cases h

theorem hexDigits_eq_map (n : Nat) (v : Word32) : hexDigits n v = (nibblesOf n v).map hexChar := by
  induction n with
  | zero => rfl
  | succ n ih => simp [hexDigits, nibblesOf, ih]

/-- The digits of the value of characters are those characters in upper case. -/
theorem hexDigits_identValue {cs : List Byte} {vs : List Nibble} (h : hexVals cs = some vs) (h8 : cs.length ≤ 8) :
    hexDigits cs.length (identValue vs) = cs.map upperHex := by
  have hl := hexVals_length h
  rw [hexDigits_eq_map, ← hl, nibblesOf_eq (identValue_toNat (by omega)), map_hexChar h]

theorem byteDigits_byteOfNibbles (a b : Nibble) : byteDigits (byteOfNibbles a b) = [hexChar a, hexChar b] := by
  revert a b; decide

theorem flatMap_byteDigits : ∀ {cs ds : List Byte}, hexBytes cs = some ds → ds.flatMap byteDigits = cs.map upperHex
  | [], _, h => by cases h; rfl
  | [_], _, h => by cases h
  | a :: b :: cs, _, h => by
    unfold hexBytes at h
    split at h
    · next va vb ds' ha hb hcs =>
      cases h
      rw [List.flatMap_cons, byteDigits_byteOfNibbles, flatMap_byteDigits hcs, hexChar_hexVal ha, hexChar_hexVal hb]
      rfl
    · cases h

/-! ### The readers backward -/

theorem Res.bind_eq_ok {α β : Type} {r : Res α} {k : α → State → Res β} {b : β} {s' : State}
    (h : r.bind k = .ok b s') : ∃ a s, r = .ok a s ∧ k a s = .ok b s' := by
  cases r with
  | ok a s => exact ⟨a, s, rfl, h⟩
  | raised s => cases h
  | stop f => cases h

theorem nibbleAtPos_inv {s s' : State} {bs : List Byte} {v : Nibble} (h : Holds s bs)
    (hr : nibbleAtPos s = .ok v s') :
    ∃ b rest, bs.drop s.pos = b :: rest ∧ hexVal b = some v ∧ s' = s.withPos (s.pos + 1) := by
  rcases Nat.lt_or_ge s.pos bs.length with hp | hp
  · have hb := List.getElem?_eq_getElem hp
    cases hv : hexVal bs[s.pos] with
    | none => rw [nibbleAtPos_bad h hb hv] at hr; cases hr
    | some w =>
      rw [nibbleAtPos_ok h hb hv] at hr
      cases hr
      exact ⟨bs[s.pos], bs.drop (s.pos + 1), List.drop_eq_getElem_cons hp, hv, rfl⟩
  · rw [nibbleAtPos_absent h hp] at hr; cases hr

theorem readIdentifier_inv {n : Nat} {bs : List Byte} {s s' : State} {acc v : Word32} (h : Holds s bs)
    (hr : readIdentifier n acc s = .ok v s') :
    ∃ cs rest vs, bs.drop s.pos = cs ++ rest ∧ cs.length = n ∧ hexVals cs = some vs ∧
      v = vs.foldl (fun acc v => acc * 16#32 + v.setWidth 32) acc ∧ s' = s.withPos (s.pos + n) := by
  induction n generalizing s acc with
  | zero => cases hr; exact ⟨[], _, [], rfl, rfl, rfl, rfl, rfl⟩
  | succ n ih =>
    obtain ⟨x, s1, hx, hr⟩ := Res.bind_eq_ok hr
    obtain ⟨b, rest, hd, hv, rfl⟩ := nibbleAtPos_inv h hx
    obtain ⟨cs, rest', vs, hd', hl, hvs, hacc, hs⟩ := ih (h.withPos _) hr
    have hd2 : rest = cs ++ rest' := by rw [← drop_tail hd]; exact hd'
    refine ⟨b :: cs, rest', x :: vs, by rw [hd, hd2]; rfl, by simp [hl], by simp [hexVals, hv, hvs], hacc, ?_⟩
    rw [hs]; simp [State.withPos]; omega

theorem readDlc_inv {bs : List Byte} {s s' : State} {v : Nibble} (h : Holds s bs) (hr : readDlc s = .ok v s') :
    ∃ b rest, bs.drop s.pos = b :: rest ∧ hexVal b = some v ∧ v ≤ dlcMax ∧ s' = s.withPos (s.pos + 1) := by
  obtain ⟨x, s1, hx, hr⟩ := Res.bind_eq_ok hr
  obtain ⟨b, rest, hd, hv, rfl⟩ := nibbleAtPos_inv h hx
  by_cases hlt : dlcMax < x
  · rw [if_pos hlt] at hr; cases hr
  · rw [if_neg hlt] at hr; cases hr
    exact ⟨b, rest, hd, hv, BitVec.not_lt.1 hlt, rfl⟩

theorem readData_inv {n : Nat} {bs ds : List Byte} {s s' : State} (h : Holds s bs) (hr : readData n s = .ok ds s') :
    ∃ cs rest, bs.drop s.pos = cs ++ rest ∧ hexBytes cs = some ds ∧ ds.length = n ∧
      s' = s.withPos (s.pos + cs.length) := by
  induction n generalizing s ds with
  | zero => cases hr; exact ⟨[], _, rfl, rfl, rfl, rfl⟩
  | succ n ih =>
    obtain ⟨x, s1, hx, hr⟩ := Res.bind_eq_ok hr
    obtain ⟨va, s2, ha, hx⟩ := Res.bind_eq_ok hx
    obtain ⟨a, r1, hd1, hva, rfl⟩ := nibbleAtPos_inv h ha
    obtain ⟨vb, s3, hb, hx⟩ := Res.bind_eq_ok hx
    obtain ⟨b, r2, hd2, hvb, rfl⟩ := nibbleAtPos_inv (h.withPos _) hb
    cases hx
    obtain ⟨ds', s4, hds, hr⟩ := Res.bind_eq_ok hr
    cases hr
    obtain ⟨cs, rest, hd3, hcs, hl, rfl⟩ := ih (h.withPos _ |>.withPos _) hds
    have e1 : r1 = b :: r2 := by rw [← drop_tail hd1]; exact hd2
    have e2 : r2 = cs ++ rest := by
      rw [← drop_tail hd2]; exact hd3
    refine ⟨a :: b :: cs, rest, by rw [hd1, e1, e2]; rfl, by simp [hexBytes, hva, hvb, hcs], by simp [hl], ?_⟩
    simp [State.withPos]; omega

/-- What a success of `Decode` says (R129): the chunk is a line of the grammar with every field in range, and the frame it
spells was written, the cursor after its last field. -/
theorem decodeFrame_inv {bs : List Byte} {s s' : State} (h : Holds s bs) (hr : decodeFrame s = .ok () s') :
    ∃ c ids l data rest vs dlc ds ext rtr, bs = c :: (ids ++ l :: (data ++ rest)) ∧ frameKind c = some (ext, rtr) ∧
      ids.length = idNibbles ext ∧ hexVals ids = some vs ∧ hexVal l = some dlc ∧ hexBytes data = some ds ∧
      ds.length = (if rtr then 0 else dlc.toNat) ∧ frameAccepted (identValue vs) ext dlc = true ∧
      s' = (s.withPos (ids.length + 2 + data.length)).withFrame
        (builtFrame (identValue vs) ext rtr dlc (Data8.ofList ds)) := by
  cases bs with
  | nil =>
    rw [decodeFrame, (h.withPos 0).lineRead_none (by simp), Res.bind_raised] at hr
    cases hr
  | cons c tail =>
    rw [decodeFrame_lead h] at hr
    cases hk : frameKind c with
    | none => rw [hk] at hr; cases hr
    | some k =>
      obtain ⟨ext, rtr⟩ := k
      rw [hk] at hr
      obtain ⟨acc, s1, h1, hr⟩ := Res.bind_eq_ok hr
      obtain ⟨ids, r1, vs, hd1, hn, hids, rfl, rfl⟩ := readIdentifier_inv ((h.withPos 0).withPos 1) h1
      obtain ⟨dlc, s2, h2, hr⟩ := Res.bind_eq_ok hr
      obtain ⟨l, r2, hd2, hl, hle, rfl⟩ := readDlc_inv (((h.withPos 0).withPos 1).withPos _) h2
      obtain ⟨ds, s3, h3, hr⟩ := Res.bind_eq_ok hr
      have hdata : ∃ cs rest, r2 = cs ++ rest ∧ hexBytes cs = some ds ∧ ds.length = (if rtr then 0 else dlc.toNat) ∧
          s3 = s.withPos (ids.length + 2 + cs.length) := by
        have hpos : 1 + idNibbles ext + 1 = ids.length + 2 := by omega
        cases rtr with
        | true =>
          cases h3
          refine ⟨[], r2, rfl, rfl, rfl, ?_⟩
          simp only [State.withPos, ← hpos]; simp
        | false =>
          obtain ⟨cs, rest, hd3, hcs, hdl, rfl⟩ := readData_inv ((((h.withPos 0).withPos 1).withPos _).withPos _) h3
          refine ⟨cs, rest, ?_, hcs, hdl, ?_⟩
          · rw [← drop_tail hd2]; exact hd3
          · simp only [State.withPos, ← hpos]
      obtain ⟨data, rest, hr2, hcs, hdl, rfl⟩ := hdata
      have hacc : frameAccepted (identValue vs) ext dlc = true := by
        cases ha : frameAccepted (identValue vs) ext dlc with
        | true => rfl
        | false =>
          have := (constructFrame_raised (rtr := rtr) (data := Data8.ofList ds) (s := s.withPos (ids.length + 2 + data.length)) ha)
          rw [identValue] at this
          rw [this] at hr; cases hr
      have hc := constructFrame_ok (rtr := rtr) (data := Data8.ofList ds) (s := s.withPos (ids.length + 2 + data.length)) hacc
      have hr' : constructFrame (identValue vs) ext rtr dlc (Data8.ofList ds)
          (s.withPos (ids.length + 2 + data.length)) = .ok () s' := hr
      rw [hc] at hr'
      cases hr'
      have e1 : tail = ids ++ r1 := by simpa using hd1
      have e2 : r1 = l :: r2 := by
        have : (c :: tail).drop (1 + idNibbles ext) = r1 := by
          rw [e1, ← hn, Nat.add_comm, List.drop_succ_cons, List.drop_left]
        rw [← this]; exact hd2
      exact ⟨c, ids, l, data, rest, vs, dlc, ds, ext, rtr, by rw [e1, e2, hr2], hk, hn, hids, hl, hcs, hdl, hacc, rfl⟩

/-- The leading characters and the frame kinds are each other's inverse (R101, R121). -/
theorem leadChar_of_frameKind {c : Byte} {ext rtr : Bool} (h : frameKind c = some (ext, rtr)) : leadChar ext rtr = c := by
  revert c ext rtr; decide

@[simp] theorem frameKind_leadChar (ext rtr : Bool) : frameKind (leadChar ext rtr) = some (ext, rtr) := by
  revert ext rtr; decide

end Sys2Proof.Machine
end

