-- ==== Sys2Proof/Laws/Step.lean ====
section
/-! SUPPORT. What a step can do, said once: the end of the run, an encode transaction, or a dispatch transaction of one of four kinds. -/

namespace Sys2Proof.Machine

section EndRun
variable (s : State)

@[simp] theorem endRun_cfg : (endRun s).cfg = s.cfg := rfl
@[simp] theorem endRun_schedule : (endRun s).schedule = [] := rfl
@[simp] theorem endRun_fsm : (endRun s).fsm = .awaitingTerminator := rfl
@[simp] theorem endRun_err : (endRun s).err = .noError := rfl
@[simp] theorem endRun_fx : (endRun s).fx = none := rfl
@[simp] theorem endRun_rlen : (endRun s).rlen = 0 := rfl
@[simp] theorem endRun_olen : (endRun s).olen = 0 := rfl
@[simp] theorem endRun_reset : endRun State.reset = State.reset := rfl
@[simp] theorem endRun_endRun : endRun (endRun s) = endRun s := rfl

/-- The end of a run depends on the build alone. -/
theorem endRun_congr {s t : State} (h : s.cfg = t.cfg) : endRun s = endRun t := by rw [endRun, h, endRun]

end EndRun

theorem step_idle {s : State} (h : s.schedule = []) : step s = .next (endRun s) := by
  rw [step, h]

/-- The state in which a chunk's transaction runs. -/
def withChunkInputs (s : State) (rest : List Trigger) (dev : Word32) (st : List Byte) : State :=
  { s with schedule := rest, deviceId := dev, statusBytes := st }

theorem step_chunk {s : State} {line : List Byte} {dev : Word32} {st : List Byte} {rest : List Trigger}
    (h : s.schedule = .chunk line dev st :: rest) :
    step s = match decodeLine line with
      | .ok i => exec i (withChunkInputs s rest dev st)
      | .error e => rejectChunk e line (withChunkInputs s rest dev st) := by
  rw [step, h]
  simp only [decodeTrigger]
  cases decodeLine line <;> rfl

theorem step_frame {s : State} {raw : CanFrame} {rest : List Trigger} (h : s.schedule = .frame raw :: rest) :
    step s = encodeTransaction raw { s with schedule := rest } := by
  rw [step, h]
  exact exec_emitted (rawFrame_decodeFramePort raw) _

theorem decodeFramePort_exec (raw : CanFrame) (s : State) : exec (decodeFramePort raw) s = encodeTransaction raw s :=
  exec_emitted (rawFrame_decodeFramePort raw) s

theorem decodeFramePort_encode (raw : CanFrame) : encode (decodeFramePort raw) = frameLine raw :=
  encode_emitted (rawFrame_decodeFramePort raw)

/-- A chunk of legal length: one result, the same in every state with the build of `s`, completing when it leaves room for
the terminator. `c` is byte 0 where a command runs. -/
theorem step_chunk_shows {s : State} {line : List Byte} (dev : Word32) (st : List Byte) (hl : line.length ≤ lineMax) :
    (∃ err, (err = .incompleteLine ∨ err = .unknownCommand) ∧ (err = .unknownCommand → line.head? ≠ some 0x56#8 ∧
        line.head? ≠ some 0x46#8 ∧ line.head? ≠ some 0x4E#8) ∧
      ∀ t rest, t.schedule = .chunk line dev st :: rest →
        step t = .next (afterDispatch (withChunkInputs t rest dev st) line [] none err t.pos t.frame)) ∨
    (∃ c r, line.head? = some c ∧ CommandResult.Sound r c (withChunkInputs s [] dev st) ∧
      ∀ t rest, t.schedule = .chunk line dev st :: rest → t.cfg = s.cfg →
        (r.bytes.length < t.cfg.respCap → step t = .next (r.after (withChunkInputs t rest dev st) line)) ∧
        (t.cfg.respCap ≤ r.bytes.length → step t = .refused .responseFull)) := by
  cases hd : decodeLine line with
  | error e =>
    left
    rcases decodeLine_error hd with ⟨rfl, hlt⟩ | ⟨rfl, -, -⟩ | ⟨rfl, -, -, c, tail, rfl, hc⟩
    · omega
    · refine ⟨.incompleteLine, .inl rfl, by simp, fun t rest ht => ?_⟩
      rw [step_chunk ht, hd]
      exact rejectIncomplete_next line _
    · refine ⟨.unknownCommand, .inr rfl, fun _ => ?_, fun t rest ht => ?_⟩
      · refine ⟨?_, ?_, ?_⟩ <;> rintro h <;> cases h <;> cases hc
      · rw [step_chunk ht, hd]
        exact rejectUnknown_next _ _
  | ok i =>
    right
    obtain ⟨c, args, mk, hc, rfl, rfl, hfit⟩ := decodeLine_ok hd
    obtain ⟨r, hr, hrun⟩ := exec_command hc hfit (withChunkInputs s [] dev st)
    refine ⟨c, r, rfl, hr, fun t rest ht hcfg => ?_⟩
    have := hrun (withChunkInputs t rest dev st) ⟨hcfg, rfl, rfl⟩
    rw [step_chunk ht, hd]
    exact this

theorem step_tooLong {s : State} {line : List Byte} {dev : Word32} {st : List Byte} {rest : List Trigger}
    (h : s.schedule = .chunk line dev st :: rest) (hl : lineMax < line.length) : step s = .refused .chunkTooLong := by
  rw [step_chunk h, decodeLine_tooLong hl]; rfl

/-- A transaction takes its trigger off the schedule and leaves the build as it was. -/
theorem step_next_cons {s u : State} {t : Trigger} {rest : List Trigger} (hs : s.schedule = t :: rest)
    (h : step s = .next u) : u.schedule = rest ∧ u.cfg = s.cfg := by
  cases t with
  | frame raw =>
    rw [step_frame hs] at h
    cases hw : raw.wf with
    | false => rw [encodeTransaction_illFormed hw] at h; cases h; exact ⟨rfl, rfl⟩
    | true => rw [encodeTransaction_wf hw] at h; cases h; exact ⟨rfl, rfl⟩
  | chunk line dev st =>
    by_cases hl : line.length ≤ lineMax
    · rcases step_chunk_shows (s := s) dev st hl with ⟨err, -, -, hrun⟩ | ⟨c, r, -, -, hrun⟩
      · rw [hrun s rest hs] at h; cases h; exact ⟨rfl, rfl⟩
      · by_cases hb : r.bytes.length < s.cfg.respCap
        · rw [(hrun s rest hs rfl).1 hb] at h; cases h; exact ⟨rfl, rfl⟩
        · rw [(hrun s rest hs rfl).2 (by omega)] at h; cases h
    · rw [step_tooLong hs (by omega)] at h; cases h

@[simp] theorem stateAt_zero (ts : Nat → Trigger) (s : State) : stateAt ts s 0 = some s := rfl

/-- What one more transaction of an infinite run is: the step of its trigger in the state the run is in. -/
theorem stateAt_succ_iff {ts : Nat → Trigger} {s v : State} {n : Nat} :
    stateAt ts s (n + 1) = some v ↔ ∃ u, stateAt ts s n = some u ∧ step (u.withSchedule [ts n]) = .next v := by
  rw [stateAt]
  cases stateAt ts s n with
  | none => simp
  | some u => cases h : step (u.withSchedule [ts n]) <;> simp [h]

/-- No transaction of a run changes the build. -/
theorem stateAt_cfg {ts : Nat → Trigger} {s : State} : ∀ {n : Nat} {u : State}, stateAt ts s n = some u → u.cfg = s.cfg
  | 0, u, h => by cases h; rfl
  | n + 1, u, h => by
    obtain ⟨v, hv, hu⟩ := stateAt_succ_iff.1 h
    exact (show u.cfg = v.cfg from (step_next_cons rfl hu).2).trans (stateAt_cfg hv)

/-- What is seen of a completed dispatch transaction. -/
@[simp] theorem afterDispatch_response (s : State) (line bytes : List Byte) (fx : Option Effect) (err : ErrKind)
    (pos : Nat) (frame : CanFrame) : (afterDispatch s line bytes fx err pos frame).response = some (bytes ++ [cr]) := by
  have := Memory.slice_writeAll s.resp (bytes ++ [cr])
  simpa [State.response, afterDispatch] using this

end Sys2Proof.Machine
end

