-- ==== Sys2Proof/Tests/Slice0.lean ====
section
/-! SUPPORT. The model's own tests. Expected results are those of spec/95_test_vectors.md (the table is named at each
group) or worked by hand from the rules; the last part shows, for each statement with hypotheses, values that meet them. -/

namespace Sys2Proof.Tests

open Sys2Proof.Machine

/-- The build of the vectors: `VERSION_BYTES = "V1013"`, status bytes of at most 8, capacities at their bounds. -/
def build : Config := { versionBytes := [0x56, 0x31, 0x30, 0x31, 0x33], statusMax := 8, respSpare := 0, outSpare := 0 }

/-- Reset, on that build. -/
def start : State := { State.reset with cfg := build }

/-- A chunk with the inputs of the vectors: `DEVICE_ID = 0x1A2B3C4D`, `STATUS_BYTES = "F00"`. -/
def chunk (bytes : List Byte) : Trigger := .chunk bytes 0x1A2B3C4D#32 [0x46, 0x30, 0x30]

/-- What one chunk shows after reset. -/
def shows (bytes : List Byte) : Option Observation := observeAlone build (chunk bytes)

/-- `RESP = "\r"`, with this effect and error. -/
def silent (fx : Option Effect) (err : ErrKind) : Option Observation := some (.dispatch (some [0x0D]) fx err)

/-- `POS` after one chunk after reset. -/
def posAfter (bytes : List Byte) : Option Nat :=
  match step (start.withSchedule [chunk bytes]) with
  | .next s => some s.pos
  | .fault _ => none
  | .refused _ => none

/-- `Decode` on its own: what it answered or raised, and `POS`. -/
def decodesTo (bytes : List Byte) : Option (Option CanFrame × ErrKind × Nat) :=
  match decodeFrame (start.holding bytes) with
  | .ok _ s => some (some s.frame, s.err, s.pos)
  | .raised s => some (none, s.err, s.pos)
  | .stop _ => none

/-- The frame `id`, `ext`, `rtr`, `dlc` with all data 00. -/
def bare (id : BitVec 29) (ext rtr : Bool) (dlc : Nibble) : CanFrame := { id, ext, rtr, dlc, data := ⟨0, 0, 0, 0, 0, 0, 0, 0⟩ }

/-! ### WellFormed refuses -/

/-- R59: 63 operand bytes make a chunk of 65. -/
theorem test_wf_refuses_long_line : (Instr.setup (List.replicate 63 0x30)).wf = false := by decide
theorem test_wf_admits_longest_line : (Instr.setup (List.replicate 62 0x30)).wf = true := by decide
/-- R23: a DLC above 8. -/
theorem test_wf_refuses_dlc_nine : (Instr.emitExtData 0 9 ⟨0, 0, 0, 0, 0, 0, 0, 0⟩).wf = false := by decide
theorem test_wf_refuses_remote_dlc_nine : (Instr.emitExtRemote 0 9 ⟨0, 0, 0, 0, 0, 0, 0, 0⟩).wf = false := by decide
/-- R23: a standard identifier above 0x7FF. -/
theorem test_wf_refuses_std_id : (Instr.emitStdData 0x800 0 ⟨0, 0, 0, 0, 0, 0, 0, 0⟩).wf = false := by decide
theorem test_wf_refuses_remote_std_id : (Instr.emitStdRemote 0x800 0 ⟨0, 0, 0, 0, 0, 0, 0, 0⟩).wf = false := by decide
theorem test_wf_admits_ext_id : (Instr.emitExtData 0x1FFFFFFF 8 ⟨0, 0, 0, 0, 0, 0, 0, 0⟩).wf = true := by decide

/-! ### Hexadecimal maps (table H) -/

theorem test_hexVal_table : hexVal 0x30 = some 0 ∧ hexVal 0x39 = some 9 ∧ hexVal 0x41 = some 10 ∧ hexVal 0x46 = some 15 ∧
    hexVal 0x61 = some 10 ∧ hexVal 0x66 = some 15 := by decide
theorem test_hexVal_none : hexVal 0x2F = none ∧ hexVal 0x3A = none ∧ hexVal 0x40 = none ∧ hexVal 0x47 = none ∧
    hexVal 0x60 = none ∧ hexVal 0x67 = none ∧ hexVal 0x0D = none ∧ hexVal 0x20 = none ∧ hexVal 0x00 = none ∧
    hexVal 0x80 = none ∧ hexVal 0xFF = none := by decide
theorem test_hexChar_table : hexChar 0 = 0x30 ∧ hexChar 9 = 0x39 ∧ hexChar 10 = 0x41 ∧ hexChar 11 = 0x42 ∧
    hexChar 12 = 0x43 ∧ hexChar 13 = 0x44 ∧ hexChar 14 = 0x45 ∧ hexChar 15 = 0x46 := by decide

/-! ### Every constructor decoded from a line written out from R72, R85 and R101 -/

theorem test_decode_setup : decodeLine [0x53, 0x36, 0x0D] = .ok (.setup [0x36]) := by rfl
theorem test_decode_cfgLowerS : decodeLine [0x73, 0x30, 0x33, 0x31, 0x43, 0x0D] = .ok (.cfgLowerS [0x30, 0x33, 0x31, 0x43]) := by rfl
theorem test_decode_openBus : decodeLine [0x4F, 0x0D] = .ok (.openBus []) := by rfl
theorem test_decode_listenBus : decodeLine [0x4C, 0x0D] = .ok (.listenBus []) := by rfl
theorem test_decode_closeBus : decodeLine [0x43, 0x0D] = .ok (.closeBus []) := by rfl
theorem test_decode_txStdData : decodeLine [0x74, 0x31, 0x32, 0x33, 0x32, 0x38, 0x41, 0x42, 0x31, 0x0D] = .ok (.txStdData [0x31, 0x32, 0x33, 0x32, 0x38, 0x41, 0x42, 0x31]) := by rfl
theorem test_decode_txExtData : decodeLine [0x54, 0x30, 0x30, 0x31, 0x41, 0x42, 0x43, 0x44, 0x45, 0x33, 0x30, 0x31, 0x30, 0x32, 0x30, 0x33, 0x0D] = .ok (.txExtData [0x30, 0x30, 0x31, 0x41, 0x42, 0x43, 0x44, 0x45, 0x33, 0x30, 0x31, 0x30, 0x32, 0x30, 0x33]) := by rfl
theorem test_decode_txStdRemote : decodeLine [0x72, 0x31, 0x32, 0x33, 0x30, 0x0D] = .ok (.txStdRemote [0x31, 0x32, 0x33, 0x30]) := by rfl
theorem test_decode_txExtRemote : decodeLine [0x52, 0x31, 0x46, 0x46, 0x46, 0x46, 0x46, 0x46, 0x46, 0x34, 0x0D] = .ok (.txExtRemote [0x31, 0x46, 0x46, 0x46, 0x46, 0x46, 0x46, 0x46, 0x34]) := by rfl
theorem test_decode_pollMode : decodeLine [0x50, 0x0D] = .ok (.pollMode []) := by rfl
theorem test_decode_autoMode : decodeLine [0x41, 0x0D] = .ok (.autoMode []) := by rfl
theorem test_decode_readStatus : decodeLine [0x46, 0x0D] = .ok (.readStatus []) := by rfl
theorem test_decode_cfgX : decodeLine [0x58, 0x31, 0x0D] = .ok (.cfgX [0x31]) := by rfl
theorem test_decode_cfgW : decodeLine [0x57, 0x30, 0x0D] = .ok (.cfgW [0x30]) := by rfl
theorem test_decode_cfgUpperM : decodeLine [0x4D, 0x30, 0x30, 0x30, 0x30, 0x30, 0x30, 0x30, 0x30, 0x0D] = .ok (.cfgUpperM [0x30, 0x30, 0x30, 0x30, 0x30, 0x30, 0x30, 0x30]) := by rfl
theorem test_decode_cfgLowerM : decodeLine [0x6D, 0x46, 0x46, 0x46, 0x46, 0x46, 0x46, 0x46, 0x46, 0x0D] = .ok (.cfgLowerM [0x46, 0x46, 0x46, 0x46, 0x46, 0x46, 0x46, 0x46]) := by rfl
theorem test_decode_cfgU : decodeLine [0x55, 0x31, 0x0D] = .ok (.cfgU [0x31]) := by rfl
theorem test_decode_version : decodeLine [0x56, 0x0D] = .ok (.version []) := by rfl
theorem test_decode_deviceIdent : decodeLine [0x4E, 0x0D] = .ok (.deviceIdent []) := by rfl
theorem test_decode_cfgZ : decodeLine [0x5A, 0x39, 0x0D] = .ok (.cfgZ [0x39]) := by rfl
theorem test_decode_cfgQ : decodeLine [0x51, 0x30, 0x0D] = .ok (.cfgQ [0x30]) := by rfl
theorem test_decode_emitStdData : decodeTrigger (.frame (bare 0x123 false false 2)) =
    .ok (.emitStdData 0x123 2 ⟨0, 0, 0, 0, 0, 0, 0, 0⟩) := by rfl
theorem test_decode_emitExtData : decodeTrigger (.frame (bare 0x123 true false 2)) =
    .ok (.emitExtData 0x123 2 ⟨0, 0, 0, 0, 0, 0, 0, 0⟩) := by rfl
theorem test_decode_emitStdRemote : decodeTrigger (.frame (bare 0x123 false true 2)) =
    .ok (.emitStdRemote 0x123 2 ⟨0, 0, 0, 0, 0, 0, 0, 0⟩) := by rfl
theorem test_decode_emitExtRemote : decodeTrigger (.frame (bare 0x123 true true 2)) =
    .ok (.emitExtRemote 0x123 2 ⟨0, 0, 0, 0, 0, 0, 0, 0⟩) := by rfl

theorem test_decode_refuses : decodeLine [] = .error .incompleteLine ∧ decodeLine [0x3F] = .error .incompleteLine ∧
    decodeLine [0x74, 0x31, 0x0A] = .error .incompleteLine ∧ decodeLine [0x0D] = .error .unknownCommand ∧
    decodeLine [0x6F, 0x0D] = .error .unknownCommand ∧ decodeLine [0x80, 0x0D] = .error .unknownCommand ∧
    decodeLine (List.replicate 65 0x0D) = .error .chunkTooLong := ⟨rfl, rfl, rfl, rfl, rfl, rfl, rfl⟩

/-! ### The encoder's lines (table E) -/

theorem test_encode_emitStdData_0 : encode (Instr.emitStdData 0x123 2 ⟨0x8A, 0xB1, 0, 0, 0, 0, 0, 0⟩) =
    [0x74, 0x31, 0x32, 0x33, 0x32, 0x38, 0x41, 0x42, 0x31, 0x0D] := by decide
theorem test_encode_emitStdData_1 : encode (Instr.emitStdData 0x0AB 1 ⟨0x0F, 0xEE, 0xEE, 0xEE, 0xEE, 0xEE, 0xEE, 0xEE⟩) =
    [0x74, 0x30, 0x41, 0x42, 0x31, 0x30, 0x46, 0x0D] := by decide
theorem test_encode_emitExtData_2 : encode (Instr.emitExtData 0x1ABCDE 3 ⟨1, 2, 3, 0, 0, 0, 0, 0⟩) =
    [0x54, 0x30, 0x30, 0x31, 0x41, 0x42, 0x43, 0x44, 0x45, 0x33, 0x30, 0x31, 0x30, 0x32, 0x30, 0x33, 0x0D] := by decide
theorem test_encode_emitExtData_3 : encode (Instr.emitExtData 0x123 0 ⟨0, 0, 0, 0, 0, 0, 0, 0⟩) =
    [0x54, 0x30, 0x30, 0x30, 0x30, 0x30, 0x31, 0x32, 0x33, 0x30, 0x0D] := by decide
theorem test_encode_emitStdRemote_4 : encode (Instr.emitStdRemote 0x7FF 8 ⟨9, 9, 9, 9, 9, 9, 9, 9⟩) =
    [0x72, 0x37, 0x46, 0x46, 0x38, 0x0D] := by decide
theorem test_encode_emitExtRemote_5 : encode (Instr.emitExtRemote 0x1FFFFFFF 4 ⟨0, 0, 0, 0, 0, 0, 0, 0⟩) =
    [0x52, 0x31, 0x46, 0x46, 0x46, 0x46, 0x46, 0x46, 0x46, 0x34, 0x0D] := by decide

/-! ### One step for each command (tables B, D, M, X) -/

theorem test_setup : shows [0x53, 0x36, 0x0D] = silent (some (.setup 6)) .noError := by rfl
theorem test_setup_nine : shows [0x53, 0x39, 0x0D] = silent none .malformedFrame := by rfl
theorem test_cfgLowerS : shows [0x73, 0x30, 0x33, 0x31, 0x43, 0x0D] = silent (some (.config 0x73 [0x30, 0x33, 0x31, 0x43])) .noError := by rfl
theorem test_openBus_first_of_two : shows [0x4F, 0x0D, 0x43, 0x0D] = silent (some .openBus) .noError := by rfl
theorem test_listenBus : shows [0x4C, 0x0D] = silent (some .listen) .noError := by rfl
theorem test_closeBus : shows [0x43, 0x0D] = silent (some .closeBus) .noError := by rfl
theorem test_txStdData : shows [0x74, 0x31, 0x32, 0x33, 0x32, 0x38, 0x41, 0x42, 0x31, 0x0D] = silent (some (.transmit { id := 0x123, ext := false, rtr := false, dlc := 2, data := ⟨0x8A, 0xB1, 0, 0, 0, 0, 0, 0⟩ })) .noError := by rfl
theorem test_txStdData_out_of_range : shows [0x74, 0x38, 0x30, 0x30, 0x30, 0x0D] = silent none .malformedFrame := by rfl
theorem test_txExtData : shows [0x54, 0x31, 0x32, 0x33, 0x34, 0x35, 0x36, 0x37, 0x38, 0x38, 0x46, 0x46, 0x45, 0x45, 0x44, 0x44, 0x43, 0x43, 0x42, 0x42, 0x41, 0x41, 0x39, 0x39, 0x38, 0x38, 0x0D] = silent (some (.transmit { id := 0x12345678, ext := true, rtr := false, dlc := 8, data := ⟨0xFF, 0xEE, 0xDD, 0xCC, 0xBB, 0xAA, 0x99, 0x88⟩ })) .noError := by rfl
theorem test_txExtData_out_of_range : shows [0x54, 0x46, 0x46, 0x46, 0x46, 0x46, 0x46, 0x46, 0x46, 0x30, 0x0D] = silent none .malformedFrame := by rfl
theorem test_txStdRemote : shows [0x72, 0x31, 0x32, 0x33, 0x32, 0x33, 0x33, 0x34, 0x34, 0x0D] = silent (some (.transmit { id := 0x123, ext := false, rtr := true, dlc := 2, data := ⟨0, 0, 0, 0, 0, 0, 0, 0⟩ })) .noError := by rfl
theorem test_txStdRemote_dlc_nine : shows [0x72, 0x31, 0x32, 0x33, 0x39, 0x0D] = silent none .malformedFrame := by rfl
theorem test_txExtRemote : shows [0x52, 0x31, 0x46, 0x46, 0x46, 0x46, 0x46, 0x46, 0x46, 0x34, 0x0D] = silent (some (.transmit { id := 0x1FFFFFFF, ext := true, rtr := true, dlc := 4, data := ⟨0, 0, 0, 0, 0, 0, 0, 0⟩ })) .noError := by rfl
theorem test_txExtRemote_short : shows [0x52, 0x30, 0x30, 0x30, 0x30, 0x30, 0x31, 0x32, 0x0D] = silent none .malformedFrame := by rfl
theorem test_pollMode : shows [0x50, 0x0D] = silent (some .poll) .noError := by rfl
theorem test_autoMode : shows [0x41, 0x0D] = silent (some .auto) .noError := by rfl
theorem test_readStatus : shows [0x46, 0x0D] = some (.dispatch (some [0x46, 0x30, 0x30, 0x0D]) (some .status) .noError) := by rfl
theorem test_cfgX : shows [0x58, 0x31, 0x0D] = silent (some (.config 0x58 [0x31])) .noError := by rfl
theorem test_cfgW : shows [0x57, 0x30, 0x0D] = silent (some (.config 0x57 [0x30])) .noError := by rfl
theorem test_cfgUpperM : shows [0x4D, 0x30, 0x30, 0x30, 0x30, 0x30, 0x30, 0x30, 0x30, 0x0D] = silent (some (.config 0x4D [0x30, 0x30, 0x30, 0x30, 0x30, 0x30, 0x30, 0x30])) .noError := by rfl
theorem test_cfgLowerM : shows [0x6D, 0x46, 0x46, 0x46, 0x46, 0x46, 0x46, 0x46, 0x46, 0x0D] = silent (some (.config 0x6D [0x46, 0x46, 0x46, 0x46, 0x46, 0x46, 0x46, 0x46])) .noError := by rfl
theorem test_cfgU : shows [0x55, 0x31, 0x0D] = silent (some (.config 0x55 [0x31])) .noError := by rfl
theorem test_cfgZ : shows [0x5A, 0x39, 0x0D] = silent (some (.config 0x5A [0x39])) .noError := by rfl
theorem test_cfgQ : shows [0x51, 0x0D] = silent (some (.config 0x51 [])) .noError := by rfl
theorem test_version : shows [0x56, 0x0D] = some (.dispatch (some [0x56, 0x31, 0x30, 0x31, 0x33, 0x0D]) none .noError) := by rfl
theorem test_deviceIdent : shows [0x4E, 0x0D] =
    some (.dispatch (some [0x31, 0x41, 0x32, 0x42, 0x33, 0x43, 0x34, 0x44, 0x0D]) (some .devId) .noError) := by rfl

theorem test_lower_case_accepted : shows [0x74, 0x37, 0x66, 0x66, 0x31, 0x61, 0x42, 0x0D] =
    silent (some (.transmit { id := 0x7FF, ext := false, rtr := false, dlc := 1, data := ⟨0xAB, 0, 0, 0, 0, 0, 0, 0⟩ })) .noError :=
  by rfl
theorem test_incomplete : shows [0x74, 0x31, 0x32, 0x33, 0x30] = silent none .incompleteLine := by rfl
theorem test_unknown : shows [0x3F, 0x39, 0x0D] = silent none .unknownCommand := by rfl
theorem test_refused_chunk : step (start.withSchedule [chunk (List.replicate 65 0x0D)]) = .refused .chunkTooLong := by rfl

/-- `POS` where the rows of table D give it, and at the short line `"t12\r"`. -/
theorem test_pos_of_failures : posAfter [0x74, 0x31, 0x32, 0x47, 0x30, 0x0D] = some 3 ∧ posAfter [0x74, 0x31, 0x32, 0x33, 0x31, 0x47, 0x30, 0x0D] = some 5 ∧
    posAfter [0x74, 0x31, 0x32, 0x33, 0x31, 0x30, 0x47, 0x0D] = some 6 ∧ posAfter [0x74, 0x31, 0x32, 0x0D] = some 3 := by decide

/-! ### One step for each emitted form (table E), and a rejected frame -/

theorem test_emitStdData : observeAlone build (.frame { id := 0x123, ext := false, rtr := false, dlc := 2, data := ⟨0x8A, 0xB1, 0, 0, 0, 0, 0, 0⟩ }) =
    some (.encoded (some [0x74, 0x31, 0x32, 0x33, 0x32, 0x38, 0x41, 0x42, 0x31, 0x0D]) .noError) := by rfl
theorem test_emitExtData : observeAlone build (.frame { id := 0x1ABCDE, ext := true, rtr := false, dlc := 3, data := ⟨1, 2, 3, 0, 0, 0, 0, 0⟩ }) =
    some (.encoded (some [0x54, 0x30, 0x30, 0x31, 0x41, 0x42, 0x43, 0x44, 0x45, 0x33, 0x30, 0x31, 0x30, 0x32, 0x30, 0x33, 0x0D]) .noError) := by rfl
theorem test_emitStdRemote : observeAlone build (.frame { id := 0x7FF, ext := false, rtr := true, dlc := 8, data := ⟨9, 9, 9, 9, 9, 9, 9, 9⟩ }) =
    some (.encoded (some [0x72, 0x37, 0x46, 0x46, 0x38, 0x0D]) .noError) := by rfl
theorem test_emitExtRemote : observeAlone build (.frame { id := 0x1FFFFFFF, ext := true, rtr := true, dlc := 4, data := ⟨0, 0, 0, 0, 0, 0, 0, 0⟩ }) =
    some (.encoded (some [0x52, 0x31, 0x46, 0x46, 0x46, 0x46, 0x46, 0x46, 0x46, 0x34, 0x0D]) .noError) := by rfl
theorem test_emit_rejects : observeAlone build (.frame (bare 0x800 false false 0)) = some (.encoded (some []) .malformedFrame) ∧
    observeAlone build (.frame (bare 0x123 false true 15)) = some (.encoded (some []) .malformedFrame) := by decide

/-- R210's codes. -/
theorem test_error_codes : ErrKind.noError.code = 0 ∧ ErrKind.malformedFrame.code = 1 ∧ ErrKind.truncatedFrame.code = 2 ∧
    ErrKind.unknownCommand.code = 3 ∧ ErrKind.incompleteLine.code = 4 := by decide

/-! ### `Decode` on its own (table D') -/

theorem test_decode_alone_truncated : decodesTo [] = some (none, .truncatedFrame, 0) ∧
    decodesTo [0x74, 0x31, 0x32] = some (none, .truncatedFrame, 3) ∧ decodesTo [0x74, 0x31, 0x32, 0x33] = some (none, .truncatedFrame, 4) ∧
    decodesTo [0x74, 0x31, 0x32, 0x33, 0x32, 0x38, 0x41] = some (none, .truncatedFrame, 7) := by decide
theorem test_decode_alone_ends : decodesTo [0x74, 0x31, 0x32, 0x33, 0x30] = some (some (bare 0x123 false false 0), .noError, 5) ∧
    decodesTo [0x78, 0x31, 0x32, 0x33, 0x30] = some (none, .malformedFrame, 0) := by decide

/-! ### The host's two questions, at reset -/

theorem test_table_word : decodeTableWord 8 0x53 = some (.setup []) ∧ decodeTableWord 8 0x74 = some (.txStdData []) ∧
    decodeTableWord 8 0x3F = none := ⟨rfl, rfl, rfl⟩
theorem test_reset_runs_word : ∃ s, step (State.reset.withFetchWord 8 0x4F) = .next s ∧ s.fx = some .openBus ∧ s.rlen = 1 :=
  ⟨_, rfl, rfl, rfl⟩
theorem test_reset_is_idle : step State.reset = .next State.reset := rfl
/-- R251 after R161: the run `O` ends in the reset state, the effect seen before and gone after. -/
theorem test_run_ends_in_reset : ∃ s, step (start.withSchedule [chunk [0x4F, 0x0D]]) = .next s ∧ s.fx = some .openBus ∧
    ∃ s', step s = .next s' ∧ s' = { State.reset with cfg := start.cfg } ∧ s'.fx = none ∧ s'.rlen = 0 :=
  ⟨_, rfl, rfl, _, rfl, rfl, rfl, rfl⟩

/-! ### What meets the hypotheses of the statements

Each theorem gives values that meet all the hypotheses of the statement it is named after, at the ends of their ranges. -/

/-- A chunk of 64 bytes without a final CR. -/
def longIncomplete : List Byte := List.replicate 63 0x0D ++ [0x0A]

theorem wit_HexMapsAreInverseUpToCase : hexVal 0x61 = some 10 ∧ hexVal 0x41 = some 10 ∧ hexVal 0x39 = some 9 := by decide
theorem wit_CommandTableHasTheTwentyOneLetters :
    (0x0D : Byte) ∉ commandRows.map Prod.fst ∧ (0xFF : Byte) ∉ commandRows.map Prod.fst := by decide
theorem wit_DecodeOfEncodeIsTheInstruction : (Instr.cfgQ (List.replicate 62 0xFF)).wf = true ∧ (Instr.openBus []).wf = true ∧
    (Instr.emitStdData 0x7FF 8 ⟨1, 2, 3, 4, 5, 6, 7, 8⟩).wf = true := by decide
theorem wit_DecodedLineIsTheEncoding : decodeLine (0x51 :: List.replicate 63 0x0D) = .ok (.cfgQ (List.replicate 62 0x0D)) := rfl
theorem wit_StepRunsTheDecodedInstruction :
    (start.withSchedule [chunk [0x4F, 0x0D]]).schedule = .chunk [0x4F, 0x0D] 0x1A2B3C4D#32 [0x46, 0x30, 0x30] :: [] ∧
    decodeLine [0x4F, 0x0D] = .ok (.openBus []) ∧
    (start.withSchedule [.frame (bare 0 true true 0)]).schedule = .frame (bare 0 true true 0) :: [] ∧
    start.schedule = [] := ⟨rfl, rfl, rfl, rfl⟩
theorem wit_IncompleteLineIsAnsweredWithCr :
    (start.withSchedule [.chunk longIncomplete 0 []]).schedule = .chunk longIncomplete 0 [] :: [] ∧
    longIncomplete.length ≤ 64 ∧ longIncomplete.getLast? ≠ some 0x0D ∧ ([] : List Byte).getLast? ≠ some 0x0D := by decide
theorem wit_UnknownCommandIsAnsweredWithCr :
    (start.withSchedule [.chunk [0x0D] 0 []]).schedule = .chunk (0x0D :: []) 0 [] :: [] ∧ [(0x0D : Byte)].length ≤ 64 ∧
    [(0x0D : Byte)].getLast? = some 0x0D ∧ (0x0D : Byte) ∉ commandRows.map Prod.fst := by decide
theorem wit_OverlongChunkIsRefused :
    (start.withSchedule [.chunk (List.replicate 65 0x0D) 0 []]).schedule = .chunk (List.replicate 65 0x0D) 0 [] :: [] ∧
    64 < (List.replicate 65 (0x0D : Byte)).length := by decide
theorem wit_EveryResponseEndsWithItsOnlyCr :
    ∃ s', step (start.withSchedule [chunk [0x46, 0x0D]]) = .next s' ∧
      ∀ b ∈ start.cfg.versionBytes ++ [0x46, 0x30, 0x30], b ≠ 0x0D ∧ b ≠ 0x07 := ⟨_, rfl, by decide⟩
theorem wit_EveryResponse_silent_line : ∃ s', step (start.withSchedule [chunk [0x4F, 0x0D]]) = .next s' ∧
    [(0x4F : Byte), 0x0D].head? ≠ some 0x56 ∧ [(0x4F : Byte), 0x0D].head? ≠ some 0x46 ∧
    [(0x4F : Byte), 0x0D].head? ≠ some 0x4E := ⟨_, rfl, by decide, by decide, by decide⟩
theorem wit_ErrorsAreSilent : ∃ s', step (start.withSchedule [chunk [0x53, 0x39, 0x0D]]) = .next s' ∧ s'.err ≠ .noError :=
  ⟨_, rfl, by decide⟩
theorem wit_BareCommandsIssueTheirEffect : (List.replicate 62 (0x20 : Byte)).length + 2 ≤ 64 := by decide
theorem wit_SetupTakesOnePresetDigit :
    ((0x38 : Byte) :: List.replicate 61 0x20).length + 2 ≤ 64 ∧ hexVal 0x38 = some 8 ∧ (8 : Nibble).toNat ≤ 8 ∧
    (∀ n, ([0x39] : List Byte).head?.bind hexVal = some n → 8 < n.toNat) ∧
    (∀ n, ([] : List Byte).head?.bind hexVal = some n → 8 < n.toNat) := by decide
theorem wit_ReadStatusAnswersTheStatusBytes :
    ([] : List Byte).length + 2 ≤ 64 ∧ (start.withInputs 0 (List.replicate 8 0xFF)).statusBytes.length + 1 ≤ start.cfg.respCap := by
  decide
theorem wit_OverlongStatusIsRefused :
    ([] : List Byte).length + 2 ≤ 64 ∧ start.cfg.respCap ≤ (start.withInputs 0 (List.replicate 9 0xFF)).statusBytes.length := by
  decide
theorem wit_VersionAnswersTheVersionBytes : ([] : List Byte).length + 2 ≤ 64 ∧ (List.replicate 62 (0x0D : Byte)).length + 2 ≤ 64 := by
  decide
theorem wit_DataFrameLines_std :
    ([0x37, 0x46, 0x66] ++ 0x38 :: (List.replicate 16 (0x61 : Byte) ++ List.replicate 42 0x20)).length + 2 ≤ 64 ∧
    hexVals [0x37, 0x46, 0x66] = some [7, 15, 15] ∧ hexVal 0x38 = some 8 ∧ (8 : Nibble).toNat ≤ 8 ∧
    hexBytes (List.replicate 16 0x61) = some (List.replicate 8 0xAA) ∧
    (List.replicate 8 (0xAA : Byte)).length = (8 : Nibble).toNat ∧ [(0x37 : Byte), 0x46, 0x66].length = 3 ∧
    (identValue [7, 15, 15]).toNat ≤ 0x7FF := by decide
theorem wit_DataFrameLines_ext :
    ((0x31 : Byte) :: List.replicate 7 0x46 ++ 0x30 :: ([] ++ [])).length + 2 ≤ 64 ∧
    hexVals (0x31 :: List.replicate 7 0x46) = some (1 :: List.replicate 7 15) ∧ hexVal 0x30 = some 0 ∧
    (0 : Nibble).toNat ≤ 8 ∧ hexBytes [] = some [] ∧ ([] : List Byte).length = (0 : Nibble).toNat ∧
    ((0x31 : Byte) :: List.replicate 7 0x46).length = 8 ∧
    (identValue (1 :: List.replicate 7 15)).toNat ≤ 0x1FFFFFFF := by decide
theorem wit_RemoteFrameLines :
    ([0x37, 0x46, 0x46] ++ 0x38 :: List.replicate 58 (0x0D : Byte)).length + 2 ≤ 64 ∧
    hexVals [0x37, 0x46, 0x46] = some [7, 15, 15] ∧ hexVal 0x38 = some 8 ∧ (8 : Nibble).toNat ≤ 8 ∧
    (identValue [7, 15, 15]).toNat ≤ 0x7FF ∧ hexVals (List.replicate 8 0x30) = some (List.replicate 8 0) ∧
    (identValue (List.replicate 8 0)).toNat ≤ 0x1FFFFFFF := by decide
theorem wit_FrameCommandsSendOrSwallow : commandTable 0x74 = some .txStdData ∧ frameKind 0x74 = some (false, false) ∧
    commandTable 0x54 = some .txExtData ∧ frameKind 0x54 = some (true, false) ∧ commandTable 0x72 = some .txStdRemote ∧
    frameKind 0x72 = some (false, true) ∧ commandTable 0x52 = some .txExtRemote ∧ frameKind 0x52 = some (true, true) ∧
    (List.replicate 62 (0x30 : Byte)).length + 2 ≤ 64 := ⟨rfl, rfl, rfl, rfl, rfl, rfl, rfl, rfl, by decide⟩
theorem wit_BadIdentifierOrDlcCharacter_at_once : commandTable 0x52 = some .txExtRemote ∧ frameKind 0x52 = some (true, true) ∧
    ([] : List Byte).length + 2 ≤ 64 ∧ ([] : List Byte) ++ [0x0D] = [] ++ 0x0D :: [] ∧ hexVals [] = some [] ∧
    hexVal 0x0D = none ∧ ([] : List Byte).length ≤ idNibbles true := ⟨rfl, rfl, by decide⟩
theorem wit_BadIdentifierOrDlcCharacter_at_dlc : commandTable 0x74 = some .txStdData ∧ frameKind 0x74 = some (false, false) ∧
    [(0x31 : Byte), 0x32, 0x33].length + 2 ≤ 64 ∧ [(0x31 : Byte), 0x32, 0x33] ++ [0x0D] = [0x31, 0x32, 0x33] ++ 0x0D :: [] ∧
    hexVals [0x31, 0x32, 0x33] = some [1, 2, 3] ∧ hexVal 0x0D = none ∧
    [(0x31 : Byte), 0x32, 0x33].length ≤ idNibbles false := ⟨rfl, rfl, by decide⟩
theorem wit_DlcAboveEight : commandTable 0x72 = some .txStdRemote ∧ frameKind 0x72 = some (false, true) ∧
    ([(0x46 : Byte), 0x46, 0x46] ++ 0x39 :: List.replicate 58 0x20).length + 2 ≤ 64 ∧
    [(0x46 : Byte), 0x46, 0x46].length = idNibbles false ∧ hexVals [0x46, 0x46, 0x46] = some [15, 15, 15] ∧
    hexVal 0x39 = some 9 ∧ 8 < (9 : Nibble).toNat := ⟨rfl, rfl, by decide⟩
theorem wit_BadDataCharacter : commandTable 0x74 = some .txStdData ∧ frameKind 0x74 = some (false, false) ∧
    [(0x31 : Byte), 0x32, 0x33, 0x32, 0x38, 0x41, 0x35].length + 2 ≤ 64 ∧
    [(0x31 : Byte), 0x32, 0x33, 0x32, 0x38, 0x41, 0x35] ++ [0x0D] = [0x31, 0x32, 0x33] ++ 0x32 :: ([0x38, 0x41, 0x35] ++ 0x0D :: []) ∧
    [(0x31 : Byte), 0x32, 0x33].length = idNibbles false ∧ hexVals [0x31, 0x32, 0x33] = some [1, 2, 3] ∧
    hexVal 0x32 = some 2 ∧ (2 : Nibble).toNat ≤ 8 ∧ hexVals [0x38, 0x41, 0x35] = some [8, 10, 5] ∧ hexVal 0x0D = none ∧
    [(0x38 : Byte), 0x41, 0x35].length < 2 * (2 : Nibble).toNat := ⟨rfl, rfl, by decide⟩
theorem wit_IdentifierOutOfRange_std : commandTable 0x74 = some .txStdData ∧ frameKind 0x74 = some (false, false) ∧
    ([(0x38 : Byte), 0x30, 0x30] ++ 0x31 :: ([0x41, 0x42] ++ [])).length + 2 ≤ 64 ∧
    [(0x38 : Byte), 0x30, 0x30].length = idNibbles false ∧ hexVals [0x38, 0x30, 0x30] = some [8, 0, 0] ∧
    hexVal 0x31 = some 1 ∧ (1 : Nibble).toNat ≤ 8 ∧ hexBytes [0x41, 0x42] = some [0xAB] ∧
    [(0xAB : Byte)].length = (if false then 0 else (1 : Nibble).toNat) ∧
    (if false then 0x1FFFFFFF else 0x7FF) < (identValue [8, 0, 0]).toNat := ⟨rfl, rfl, by decide⟩
theorem wit_IdentifierOutOfRange_ext : commandTable 0x52 = some .txExtRemote ∧ frameKind 0x52 = some (true, true) ∧
    (((0x32 : Byte) :: List.replicate 7 0x30) ++ 0x38 :: ([] ++ [])).length + 2 ≤ 64 ∧
    ((0x32 : Byte) :: List.replicate 7 0x30).length = idNibbles true ∧
    hexVals (0x32 :: List.replicate 7 0x30) = some (2 :: List.replicate 7 0) ∧ hexVal 0x38 = some 8 ∧
    (8 : Nibble).toNat ≤ 8 ∧ hexBytes [] = some [] ∧
    ([] : List Byte).length = (if true then 0 else (8 : Nibble).toNat) ∧
    (if true then 0x1FFFFFFF else 0x7FF) < (identValue (2 :: List.replicate 7 0)).toNat := ⟨rfl, rfl, by decide⟩
theorem wit_EveryWellFormedInstructionCompletes : (Instr.readStatus []).wf = true ∧
    (start.withInputs 0 (List.replicate 8 0xFF)).statusBytes.length + 1 ≤ start.cfg.respCap := by decide
theorem wit_DecodeAloneReportsTruncation : start.err = .noError ∧ frameKind 0x78 = none ∧ frameKind 0x74 = some (false, false) ∧
    hexVals [0x31, 0x32, 0x33] = some [1, 2, 3] ∧ [(0x31 : Byte), 0x32, 0x33].length ≤ idNibbles false ∧
    hexVal 0x38 = some 8 ∧ hexVals (List.replicate 15 0x30) = some (List.replicate 15 0) ∧
    (List.replicate 15 (0x30 : Byte)).length < 2 * (8 : Nibble).toNat := by decide
theorem wit_ConstructFrameChecksThenWritesWhole : 8 < (9 : Nibble).toNat ∧ 0x7FF < (0x800 : Word32).toNat ∧
    0x1FFFFFFF < (0x20000000 : Word32).toNat ∧ (8 : Nibble).toNat ≤ 8 ∧ (0x7FF : Word32).toNat ≤ 0x7FF ∧
    (0x1FFFFFFF : Word32).toNat ≤ 0x1FFFFFFF := by decide
theorem wit_NibbleAtPosChecksPresenceThenValue : ([] : List Byte).length ≤ start.pos ∧
    ([0x47] : List Byte)[start.pos]? = some 0x47 ∧ hexVal 0x47 = none ∧ ([0x66] : List Byte)[start.pos]? = some 0x66 ∧
    hexVal 0x66 = some 15 := by decide
theorem wit_AppendsWriteOneByteAtTheCursor : start.rlen < start.cfg.respCap ∧ start.olen < start.cfg.outCap ∧
    start.cfg.respCap ≤ (start.withResp [] start.cfg.respCap).rlen ∧
    start.cfg.outCap ≤ (start.withOut [] start.cfg.outCap).olen := by decide
theorem wit_FirstRaiseWins : start.err = .noError ∧ ErrKind.incompleteLine ≠ .noError := by decide
theorem wit_WellFormedFramesAreEmitted : (8 : Nibble).toNat ≤ 8 ∧ (0x7FF : BitVec 29).toNat ≤ 0x7FF := by decide
theorem wit_IllFormedFramesEmitNothing : 8 < (bare 0 true false 9).dlc.toNat ∧ (bare 0x800 false true 0).ext = false ∧
    0x7FF < (bare 0x800 false true 0).id.toNat := by decide
theorem wit_FramesOfTheEncoder : (bare 0x7FF false false 8).wf = true ∧ (bare 0x1FFFFFFF true true 8).wf = true ∧
    encode (decodeFramePort (bare 0x12 false true 3)) =
      encode (decodeFramePort { bare 0x12 false true 3 with data := ⟨1, 2, 3, 4, 5, 6, 7, 8⟩ }) := by decide
theorem wit_EmittedBytesAreTheFields : (bare 0x1FFFFFFF true false 8).wf = true ∧ 7 < 8 ∧
    (bare 0x1FFFFFFF true false 8).rtr = false ∧ 7 < (bare 0x1FFFFFFF true false 8).dlc.toNat ∧
    (bare 0x1FFFFFFF true false 8).data.toList[7]? = some 0 := by decide
theorem wit_DecodedLineIsReEncodedUpToCase : ∃ s', decodeFrame (start.holding [0x74, 0x37, 0x66, 0x66, 0x31, 0x61, 0x42]) = .ok () s' :=
  ⟨_, rfl⟩
theorem wit_CommandsLeaveTheEncodePortAlone : (Instr.deviceIdent []).rawFrame = none ∧
    ∃ s', exec (.deviceIdent []) start = .next s' := ⟨rfl, _, rfl⟩
theorem wit_EmittedFormsLeaveTheDispatchPortAlone :
    (Instr.emitStdRemote 1 0 ⟨0, 0, 0, 0, 0, 0, 0, 0⟩).rawFrame = some (bare 1 false true 0) ∧
    ∃ s', exec (.emitStdRemote 1 0 ⟨0, 0, 0, 0, 0, 0, 0, 0⟩) start = .next s' := ⟨rfl, _, rfl⟩
/-- Reset on the test build meets the invariant, with a step to take. -/
theorem wit_EveryStepKeepsTheInvariant : Inv (start.withSchedule [chunk [0x4F, 0x0D]]) ∧
    ∃ s', step (start.withSchedule [chunk [0x4F, 0x0D]]) = .next s' :=
  ⟨{ lineWf := rfl, respWf := rfl, outWf := rfl, respValid := rfl, outValid := rfl, rlenBound := by decide,
     olenBound := by decide, respInside := by decide, outInside := by decide, lenBound := by decide, posBound := by decide,
     fsmIdle := rfl, frameWf := rfl, frameZero := rfl, fxTransmit := by rintro f ⟨⟩, fxSetup := by rintro n ⟨⟩,
     errReachable := by decide }, _, rfl⟩
theorem wit_LegalTriggersAlwaysComplete : Trigger.legal build (.chunk (List.replicate 64 0) 0 (List.replicate 8 0)) ∧
    Trigger.legal build (.frame (bare 0x800 false false 9)) := ⟨⟨by decide, by decide⟩, trivial⟩
theorem wit_LegalRunsNeverStop : ∀ t ∈ [chunk [0x4F, 0x0D], chunk []], Trigger.legal start.cfg t := by
  simp [chunk, Trigger.legal, lineMax, start, build, Config.respCap, Config.respMax]
theorem wit_RunsEndInTheResetState : (∀ t ∈ [chunk [0x4F, 0x0D], chunk []], Trigger.legal start.cfg t) ∧
    finalState [chunk [0x4F, 0x0D], chunk []] start = some { State.reset with cfg := start.cfg } :=
  ⟨wit_LegalRunsNeverStop, rfl⟩
/-- Opening and closing for ever, an incomplete line in between. -/
def forEver : Nat → Trigger := fun n => if n % 3 = 0 then chunk [0x4F, 0x0D] else if n % 3 = 1 then chunk [0x43] else chunk [0x43, 0x0D]
theorem wit_InfiniteRunsNeverStop : ∀ n, Trigger.legal start.cfg (forEver n) := by
  intro n
  simp only [forEver]
  split
  · exact ⟨by decide, by decide⟩
  · split <;> exact ⟨by decide, by decide⟩
theorem test_infinite_run : observeAt forEver start 0 = some (.dispatch (some [0x0D]) (some .openBus) .noError) ∧
    observeAt forEver start 4 = some (.dispatch (some [0x0D]) none .incompleteLine) := ⟨rfl, rfl⟩
theorem wit_NeighbouringTransactionsCommute : ∃ x y,
    observeRun [chunk [0x4E, 0x0D], .frame (bare 0x7FF false true 8)] start = some [x, y] := ⟨_, _, rfl⟩
theorem wit_DispatchIsIdempotent : ∃ x y mid,
    observeRun (chunk [0x4F, 0x0D] :: ([chunk [0x53]] ++ [chunk [0x4F, 0x0D]])) start = some (x :: (mid ++ [y])) ∧
    mid.length = [chunk [0x53]].length := ⟨_, _, [.dispatch (some [0x0D]) none .incompleteLine], rfl, rfl⟩
theorem wit_StepsStopOnlyOnIllegalTriggers :
    step (start.withSchedule [.chunk (List.replicate 65 0) 0 []]) = .refused .chunkTooLong ∧
    step (start.withSchedule [.chunk [0x46, 0x0D] 0 (List.replicate 9 0)]) = .refused .responseFull := ⟨rfl, rfl⟩

end Sys2Proof.Tests
end

section
/-! PROOFS of the scope statements: decode of encode, what a step runs, and the two readings of a run, finite and infinite. -/

namespace Sys2Proof

/-! ### Decode of encode -/

/-- The converse of `rawFrame_decodeFramePort`: the frame of an emitted form selects that form (R101). -/
theorem decodeFramePort_of_rawFrame {i : Instr} {raw : CanFrame} (h : i.rawFrame = some raw) :
    decodeFramePort raw = i := by
  cases i
  case emitStdData | emitExtData | emitStdRemote | emitExtRemote => cases h; rfl
  all_goals cases h

/-- The line of a well-formed command decodes to it. -/
theorem decodeLine_encode {i : Instr} (hr : i.rawFrame = none) (hwf : i.wf = true) :
    decodeLine (encode i) = .ok i := by
  obtain ⟨c, args, mk, hc, rfl⟩ := commandTable_of_rawFrame hr
  obtain ⟨henc, -, hfit⟩ := encode_of_commandTable hc args
  rw [henc]
  exact decodeLine_commandLine hc (of_decide_eq_true (hfit.symm.trans hwf))

theorem encodeTrigger_emitted {i : Instr} {raw : CanFrame} (h : i.rawFrame = some raw) (dev : Word32) (st : List Byte) :
    encodeTrigger i dev st = .frame raw := by
  rw [encodeTrigger, h]

theorem encodeTrigger_command {i : Instr} (h : i.rawFrame = none) (dev : Word32) (st : List Byte) :
    encodeTrigger i dev st = .chunk (encode i) dev st := by
  rw [encodeTrigger, h]

/-- Settles O5: by port. An emitted form comes back from its frame's flags, a command from its row of the table. -/
theorem decodeOfEncodeIsTheInstruction : Obligations.DecodeOfEncodeIsTheInstruction := by
  intro i dev st hwf
  cases hr : i.rawFrame with
  | some raw =>
    rw [encodeTrigger_emitted hr, decodeTrigger, decodeFramePort_of_rawFrame hr]
  | none =>
    rw [encodeTrigger_command hr, decodeTrigger]
    exact decodeLine_encode hr hwf

namespace Machine

/-- Settles O7: from the equations of `step`, one per kind of schedule. -/
theorem stepRunsTheDecodedInstruction : Obligations.StepRunsTheDecodedInstruction := by
  refine ⟨fun s line dev st rest i hs hd => ?_, fun s raw rest hs => ?_, fun s hs => step_idle hs, step_idle rfl⟩
  · rw [step_chunk hs, hd]
    rfl
  · rw [step_frame hs, decodeFramePort_exec]

/-! ### What a transaction shows -/

/-- What is seen of the transaction of trigger `t` when its step came out as `o`; nothing if it stopped (R251). -/
def shown (t : Trigger) : Out → Option Observation
  | .next s => some (observe t s)
  | .fault _ => none
  | .refused _ => none

@[simp] theorem shown_next (t : Trigger) (s : State) : shown t (.next s) = some (observe t s) := rfl
@[simp] theorem shown_fault (t : Trigger) (f : Fault) : shown t (.fault f) = none := rfl
@[simp] theorem shown_refused (t : Trigger) (r : Refusal) : shown t (.refused r) = none := rfl

theorem observeAlone_eq_shown (c : Config) (t : Trigger) :
    observeAlone c t = shown t (step { State.reset with cfg := c, schedule := [t] }) := by
  rw [observeAlone]
  cases step { State.reset with cfg := c, schedule := [t] } <;> rfl

/-- The one dispatch answer, seen: the bytes and CR, the effect and the error, whatever the state it was left in. -/
theorem observe_afterDispatch (s : State) (line bytes chunk : List Byte) (dev : Word32) (st : List Byte)
    (fx : Option Effect) (err : ErrKind) (pos : Nat) (frame : CanFrame) :
    observe (.chunk chunk dev st) (afterDispatch s line bytes fx err pos frame) =
      .dispatch (some (bytes ++ [cr])) fx err := by
  rw [observe, afterDispatch_response]
  rfl

/-- What an encode transaction shows is a function of the raw frame (R100). -/
theorem shown_encodeTransaction (raw : CanFrame) (s : State) :
    shown (.frame raw) (encodeTransaction raw s) =
      if raw.wf then
        some (.encoded (some (frameLine (builtFrame (raw.id.setWidth 32) raw.ext raw.rtr raw.dlc raw.data))) .noError)
      else some (.encoded (some []) .malformedFrame) := by
  cases hw : raw.wf with
  | true =>
    rw [encodeTransaction_wf hw, shown_next, observe, State.output]
    exact congrArg (fun out => some (Observation.encoded out .noError)) (Memory.slice_writeAll _ _)
  | false =>
    rw [encodeTransaction_illFormed hw]
    rfl

/-- No memory (R20), for one trigger: what its transaction shows depends on the state only through the build. -/
theorem shown_step_congr {t : Trigger} {s u : State} {rest rest' : List Trigger} (hs : s.schedule = t :: rest)
    (hu : u.schedule = t :: rest') (hc : s.cfg = u.cfg) : shown t (step s) = shown t (step u) := by
  cases t with
  | frame raw => rw [step_frame hs, step_frame hu, shown_encodeTransaction, shown_encodeTransaction]
  | chunk line dev st =>
    by_cases hl : line.length ≤ lineMax
    · rcases step_chunk_shows (s := u) dev st hl with ⟨err, -, -, hrun⟩ | ⟨c, r, -, -, hrun⟩
      · rw [hrun s rest hs, hrun u rest' hu, shown_next, shown_next, observe_afterDispatch, observe_afterDispatch]
      · obtain ⟨hnext, hfull⟩ := hrun s rest hs hc
        obtain ⟨hnext', hfull'⟩ := hrun u rest' hu rfl
        rcases Nat.lt_or_ge r.bytes.length u.cfg.respCap with hb | hb
        · rw [hnext (hc ▸ hb), hnext' hb, shown_next, shown_next, CommandResult.after, CommandResult.after,
            observe_afterDispatch, observe_afterDispatch]
        · rw [hfull (hc ▸ hb), hfull' hb]
    · rw [step_tooLong hs (by omega), step_tooLong hu (by omega)]

theorem shown_step_eq_observeAlone {t : Trigger} {s : State} {rest : List Trigger} (hs : s.schedule = t :: rest) :
    shown t (step s) = observeAlone s.cfg t := by
  rw [observeAlone_eq_shown]
  exact shown_step_congr hs rfl rfl

/-! ### Legal triggers -/

/-- A command's bytes leave room for the terminator when the collaborator's status bytes do (R182). -/
theorem CommandResult.Sound.bytes_lt_respCap {r : CommandResult} {c : Byte} {s : State} (hr : r.Sound c s)
    (hst : s.statusBytes.length < s.cfg.respCap) : r.bytes.length < s.cfg.respCap := by
  rcases hr.bytes with hb | ⟨-, hb⟩ | ⟨-, hb⟩ | ⟨-, hb⟩ <;> rw [hb]
  · exact respCap_pos s.cfg
  · exact versionBytes_lt_respCap s.cfg
  · exact hst
  · rw [hexDigits_length]
    exact respCap_ge_nine s.cfg

/-- A legal trigger's transaction completes (R153). -/
theorem step_next_of_legal {s : State} {t : Trigger} {rest : List Trigger} (hs : s.schedule = t :: rest)
    (ht : Trigger.legal s.cfg t) : ∃ u, step s = .next u := by
  cases t with
  | frame raw =>
    rw [step_frame hs]
    cases hw : raw.wf with
    | true => exact ⟨_, encodeTransaction_wf hw _⟩
    | false => exact ⟨_, encodeTransaction_illFormed hw _⟩
  | chunk line dev st =>
    obtain ⟨hl, hst⟩ := ht
    rcases step_chunk_shows (s := s) dev st hl with ⟨err, -, -, hrun⟩ | ⟨c, r, -, hr, hrun⟩
    · exact ⟨_, hrun s rest hs⟩
    · exact ⟨_, (hrun s rest hs rfl).1 (hr.bytes_lt_respCap hst)⟩

theorem observeAlone_of_legal {c : Config} {t : Trigger} (ht : Trigger.legal c t) : ∃ o, observeAlone c t = some o := by
  obtain ⟨u, hu⟩ := step_next_of_legal (s := { State.reset with cfg := c, schedule := [t] }) rfl ht
  exact ⟨observe t u, by rw [observeAlone_eq_shown, hu, shown_next]⟩

/-! ### Finite runs -/

theorem observeRun_cons_of_next {t : Trigger} {ts : List Trigger} {s u : State}
    (h : step (s.withSchedule (t :: ts)) = .next u) :
    observeRun (t :: ts) s = (observeRun ts u).map (observe t u :: ·) := by
  rw [observeRun, h]

theorem observeRun_cons_of_stop {t : Trigger} {ts : List Trigger} {s : State}
    (h : shown t (step (s.withSchedule (t :: ts))) = none) : observeRun (t :: ts) s = none := by
  rw [observeRun]
  cases hstep : step (s.withSchedule (t :: ts)) with
  | next u => simp [hstep] at h
  | fault f => rfl
  | refused r => rfl

/-- A run shows for each trigger what it shows alone, and stops with the first that stops alone (R20, R251). -/
theorem observeRun_eq_mapM (ts : List Trigger) (s : State) : observeRun ts s = ts.mapM (observeAlone s.cfg) := by
  induction ts generalizing s with
  | nil => rfl
  | cons t ts ih =>
    have halone : shown t (step (s.withSchedule (t :: ts))) = observeAlone s.cfg t := shown_step_eq_observeAlone rfl
    rw [List.mapM_cons, ← halone]
    cases hstep : step (s.withSchedule (t :: ts)) with
    | next u =>
      have hcfg : u.cfg = s.cfg := (step_next_cons rfl hstep).2
      rw [observeRun_cons_of_next hstep, ih, hcfg, shown_next]
      cases ts.mapM (observeAlone s.cfg) <;> rfl
    | fault f => rw [observeRun_cons_of_stop (by rw [hstep, shown_fault])]; rfl
    | refused r => rw [observeRun_cons_of_stop (by rw [hstep, shown_refused])]; rfl

/-! ### Infinite runs -/

/-- The first `n + 1` results of `f`: the first `n` if none of them is missing, and then the last. -/
theorem mapM_range_succ {α : Type} (f : Nat → Option α) (n : Nat) :
    (List.range (n + 1)).mapM f = ((List.range n).mapM f).bind fun xs => (f n).map fun x => xs ++ [x] := by
  rw [List.range_succ, List.mapM_append]
  simp [Option.map_eq_bind, Option.bind_assoc]

section InfiniteRun
variable {ts : Nat → Trigger} {s : State} {n : Nat}

theorem observeAt_eq_shown {u : State} (h : stateAt ts s n = some u) :
    observeAt ts s n = shown (ts n) (step (u.withSchedule [ts n])) := by
  rw [observeAt, stateAt, h]
  dsimp only
  cases step (u.withSchedule [ts n]) <;> rfl

/-- Where an infinite run arrives, its next transaction shows what its trigger shows alone after reset. -/
theorem observeAt_eq_observeAlone {u : State} (h : stateAt ts s n = some u) :
    observeAt ts s n = observeAlone s.cfg (ts n) := by
  rw [observeAt_eq_shown h, ← stateAt_cfg h]
  exact shown_step_eq_observeAlone rfl

/-- An infinite run of legal triggers reaches every index. -/
theorem stateAt_of_legal (hts : ∀ n, Trigger.legal s.cfg (ts n)) : ∀ n, ∃ u, stateAt ts s n = some u
  | 0 => ⟨s, rfl⟩
  | n + 1 => by
    obtain ⟨u, hu⟩ := stateAt_of_legal hts n
    have hlegal : Trigger.legal u.cfg (ts n) := stateAt_cfg hu ▸ hts n
    obtain ⟨v, hv⟩ := step_next_of_legal (s := u.withSchedule [ts n]) rfl hlegal
    exact ⟨v, stateAt_succ_iff.2 ⟨u, hu, hv⟩⟩

/-- A run whose first `n` transactions were all seen is in a state after them. -/
theorem stateAt_of_mapM_observeAt {os : List Observation} (h : (List.range n).mapM (observeAt ts s) = some os) :
    ∃ u, stateAt ts s n = some u := by
  cases n with
  | zero => exact ⟨s, rfl⟩
  | succ n =>
    rw [mapM_range_succ] at h
    obtain ⟨xs, -, hlast⟩ := Option.bind_eq_some_iff.1 h
    obtain ⟨o, ho, -⟩ := Option.map_eq_some_iff.1 hlast
    obtain ⟨u, hu, -⟩ := Option.map_eq_some_iff.1 ho
    exact ⟨u, hu⟩

/-- The beginning of an infinite run shows what its triggers show alone after reset. -/
theorem mapM_observeAt_eq_observeAlone (ts : Nat → Trigger) (s : State) (n : Nat) :
    (List.range n).mapM (observeAt ts s) = (List.range n).mapM fun i => observeAlone s.cfg (ts i) := by
  induction n with
  | zero => rfl
  | succ n ih =>
    rw [mapM_range_succ, mapM_range_succ, ← ih]
    cases h : (List.range n).mapM (observeAt ts s) with
    | none => rfl
    | some os =>
      obtain ⟨u, hu⟩ := stateAt_of_mapM_observeAt h
      rw [Option.bind_some, Option.bind_some, observeAt_eq_observeAlone hu]

end InfiniteRun

/-- Settles O52: a legal run reaches every index, and each transaction shows what its trigger shows alone. -/
theorem infiniteRunsNeverStop : Obligations.InfiniteRunsNeverStop := by
  intro ts s hts n
  obtain ⟨u, hu⟩ := stateAt_of_legal hts n
  obtain ⟨o, ho⟩ := observeAlone_of_legal (hts n)
  exact ⟨⟨u, hu, stateAt_cfg hu⟩, o, (observeAt_eq_observeAlone hu).trans ho, ho⟩

/-- Settles O53: both runs show for each trigger what it shows alone after reset. -/
theorem finiteRunsAreTheBeginningsOfInfiniteOnes : Obligations.FiniteRunsAreTheBeginningsOfInfiniteOnes := by
  intro ts s n
  calc observeRun ((List.range n).map ts) s
      = ((List.range n).map ts).mapM (observeAlone s.cfg) := observeRun_eq_mapM _ s
    _ = (List.range n).mapM fun i => observeAlone s.cfg (ts i) := List.mapM_map
    _ = (List.range n).mapM (observeAt ts s) := (mapM_observeAt_eq_observeAlone ts s n).symm

end Machine
end Sys2Proof
end

section
/-! PROOFS of the state statements: the invariant, what each port leaves alone, the frame register and its line, and
how runs remember nothing and end. -/

namespace Sys2Proof
namespace Machine

/-! ### The invariant -/

/-- Which trigger is next, and what stands at the inputs, is no part of the invariant. -/
theorem inv_withChunkInputs {s : State} (h : Inv s) (rest : List Trigger) (dev : Word32) (st : List Byte) :
    Inv (withChunkInputs s rest dev st) :=
  { h with }

/-- The end of a run meets the invariant on every build (R47, R251). -/
theorem inv_endRun (s : State) : Inv (endRun s) where
  lineWf := rfl
  respWf := rfl
  outWf := rfl
  respValid := rfl
  outValid := rfl
  rlenBound := Nat.zero_le _
  olenBound := Nat.zero_le _
  respInside := fun _ hc => absurd hc List.not_mem_nil
  outInside := fun _ hc => absurd hc List.not_mem_nil
  lenBound := Nat.zero_le _
  posBound := Nat.zero_le _
  fsmIdle := rfl
  frameWf := rfl
  frameZero := rfl
  fxTransmit := fun _ hf => nomatch hf
  fxSetup := fun _ hn => nomatch hn
  errReachable := by simp

/-- Bytes written from 0 that fit a capacity lie inside it, as the cells before did. -/
theorem Memory.writeAll_inside {m : Memory} {bs : List Byte} {cap : Nat} (hm : ∀ c ∈ m, c.1 < cap)
    (hb : bs.length ≤ cap) : ∀ c ∈ m.writeAll 0 bs, c.1 < cap := by
  intro c hc
  rcases Memory.mem_writeAll hc with ⟨-, hlt⟩ | hold
  · omega
  · exact hm c hold

/-- A completed dispatch transaction keeps the invariant when its answer leaves room for the terminator and its cursor,
frame, effect and error are what the invariant asks. -/
theorem inv_afterDispatch {s : State} {line bytes : List Byte} {fx : Option Effect} {err : ErrKind} {pos : Nat}
    {frame : CanFrame} (h : Inv s) (hline : line.length ≤ lineMax) (hbytes : bytes.length < s.cfg.respCap)
    (hpos : pos ≤ lineMax) (hframe : frame.wf = true ∧ frame.zeroFilled)
    (htransmit : ∀ f, fx = some (.transmit f) → f.wf = true) (hsetup : ∀ n, fx = some (.setup n) → n ≤ presetMax)
    (herr : err ≠ .truncatedFrame) : Inv (afterDispatch s line bytes fx err pos frame) where
  lineWf := Memory.wf_ofBytes line
  respWf := Memory.wf_writeAll _ _ _ h.respWf
  outWf := h.outWf
  respValid := by rw [afterDispatch_response]; rfl
  outValid := h.outValid
  rlenBound := hbytes
  olenBound := h.olenBound
  respInside := Memory.writeAll_inside h.respInside (by rw [List.length_append]; exact hbytes)
  outInside := h.outInside
  lenBound := hline
  posBound := hpos
  fsmIdle := rfl
  frameWf := hframe.1
  frameZero := hframe.2
  fxTransmit := htransmit
  fxSetup := hsetup
  errReachable := herr

/-- A command's sound result keeps the invariant. -/
theorem CommandResult.Sound.inv_after {r : CommandResult} {c : Byte} {s u : State} {line : List Byte}
    (hr : r.Sound c u) (h : Inv s) (hline : line.length ≤ lineMax) (hbytes : r.bytes.length < s.cfg.respCap) :
    Inv (r.after s line) := by
  have hpos : r.pos.getD s.pos ≤ lineMax := by
    cases hp : r.pos with
    | none => exact h.posBound
    | some p => exact hr.pos p hp
  have hframe : (r.frame.getD s.frame).wf = true ∧ (r.frame.getD s.frame).zeroFilled := by
    cases hf : r.frame with
    | none => exact ⟨h.frameWf, h.frameZero⟩
    | some f =>
      obtain ⟨hwf, hzero, -, -⟩ := hr.frame f hf
      exact ⟨hwf, hzero⟩
  have htransmit : ∀ f, r.fx = some (.transmit f) → f.wf = true := fun f hf => (hr.frame f (hr.transmit f hf)).1
  have herr : r.err ≠ .truncatedFrame := by
    rcases hr.err with he | ⟨he, -, -, -⟩ <;> simp [he]
  exact inv_afterDispatch h hline hbytes hpos hframe htransmit hr.setup herr

theorem dlc_le_of_wf {f : CanFrame} (h : f.wf = true) : f.dlc ≤ dlcMax := by
  simp only [CanFrame.wf, Bool.and_eq_true, decide_eq_true_eq] at h
  exact h.1

/-- An encode transaction keeps the invariant: a well-formed raw frame leaves its line, an ill-formed one nothing. -/
theorem inv_of_encodeTransaction {raw : CanFrame} {s s' : State} (h : Inv s)
    (hstep : encodeTransaction raw s = .next s') : Inv s' := by
  cases hw : raw.wf with
  | true =>
    rw [encodeTransaction_wf hw] at hstep
    cases hstep
    have hwf : (builtFrame (raw.id.setWidth 32) raw.ext raw.rtr raw.dlc raw.data).wf = true :=
      builtFrame_wf ((frameAccepted_port raw).trans hw)
    have hzero := builtFrame_zeroFilled (raw.id.setWidth 32) raw.ext raw.rtr raw.dlc raw.data
    generalize builtFrame (raw.id.setWidth 32) raw.ext raw.rtr raw.dlc raw.data = f at hwf hzero ⊢
    have hlen : (frameLine f).length ≤ s.cfg.outCap :=
      Nat.le_trans (frameLine_length_le f (dlc_le_of_wf hwf)) (outCap_ge s.cfg)
    exact { h with
      outWf := Memory.wf_writeAll _ _ _ h.outWf
      outValid := by
        show (Memory.slice _ 0 _).isSome = true
        rw [State.withOut_out, State.withOut_olen, Memory.slice_writeAll]
        rfl
      olenBound := hlen
      outInside := Memory.writeAll_inside h.outInside hlen
      frameWf := hwf
      frameZero := hzero
      errReachable := by simp }
  | false =>
    rw [encodeTransaction_illFormed hw] at hstep
    cases hstep
    exact { h with outValid := rfl, olenBound := Nat.zero_le _, errReachable := by simp }

/-- The step of a chunk keeps the invariant. -/
theorem inv_of_step_chunk {s s' : State} {line : List Byte} {dev : Word32} {st : List Byte} {rest : List Trigger}
    (h : Inv s) (hs : s.schedule = .chunk line dev st :: rest) (hstep : step s = .next s') : Inv s' := by
  have hports : Inv (withChunkInputs s rest dev st) := inv_withChunkInputs h rest dev st
  rcases Nat.lt_or_ge lineMax line.length with hlong | hline
  · rw [step_tooLong hs hlong] at hstep
    cases hstep
  rcases step_chunk_shows (s := s) dev st hline with ⟨err, herr, -, hrun⟩ | ⟨c, r, -, hr, hrun⟩
  · rw [hrun s rest hs] at hstep
    cases hstep
    exact inv_afterDispatch hports hline (respCap_pos _) h.posBound ⟨h.frameWf, h.frameZero⟩ (by simp) (by simp)
      (by rcases herr with rfl | rfl <;> simp)
  · obtain ⟨hfits, hfull⟩ := hrun s rest hs rfl
    rcases Nat.lt_or_ge r.bytes.length s.cfg.respCap with hb | hb
    · rw [hfits hb] at hstep
      cases hstep
      exact hr.inv_after hports hline hb
    · rw [hfull hb] at hstep
      cases hstep

/-- Settles O44: by the next trigger, each kind of transaction by its own lemma. -/
theorem everyStepKeepsTheInvariant : Obligations.EveryStepKeepsTheInvariant := by
  intro s s' h hstep
  cases hs : s.schedule with
  | nil =>
    rw [step_idle hs] at hstep
    cases hstep
    exact inv_endRun s
  | cons t rest =>
    cases t with
    | chunk line dev st => exact inv_of_step_chunk h hs hstep
    | frame raw =>
      rw [step_frame hs] at hstep
      exact inv_of_encodeTransaction (inv_withChunkInputs h rest s.deviceId s.statusBytes) hstep

/-- Settles O43: reset is the end of a run. -/
theorem resetMeetsTheInvariant : Obligations.ResetMeetsTheInvariant := inv_endRun State.reset

/-- Settles O42: each value stands in the definition of reset. -/
theorem resetLeavesTheStatedValues : Obligations.ResetLeavesTheStatedValues := ⟨rfl, rfl, rfl, rfl, rfl, rfl⟩

/-! ### The Command Table and `ERR` -/

/-- Settles O3: the 21 rows by lookup, every other byte because no row lists it. -/
theorem commandTableHasTheTwentyOneLetters : Obligations.CommandTableHasTheTwentyOneLetters :=
  ⟨rfl, rfl, rfl, rfl, rfl, rfl, rfl, rfl, rfl, rfl, rfl, rfl, rfl, rfl, rfl, rfl, rfl, rfl, rfl, rfl, rfl,
    fun _ hc => lookupRow_none.2 hc⟩

/-- After a raise of an error `ERR` holds one. -/
theorem raise_err_ne_noError {k : ErrKind} (hk : k ≠ .noError) (s : State) : (raise k s).err ≠ .noError := by
  by_cases hs : s.err = .noError
  · rw [raise_of_noError hs, State.withErr_err]
    exact hk
  · rw [raise_of_error hs]
    exact hs

/-- Settles O32: a raise writes from `None` only, and after a raise `ERR` is not `None`. -/
theorem firstRaiseWins : Obligations.FirstRaiseWins :=
  ⟨fun _ _ hs => raise_of_noError hs, fun s _ _ hj => raise_of_error (raise_err_ne_noError hj s)⟩

/-! ### `ConstructFrame` in numbers -/

/-- What `ConstructFrame` accepts, in numbers (R24). -/
theorem frameAccepted_iff {id : Word32} {ext : Bool} {dlc : Nibble} :
    frameAccepted id ext dlc = true ↔ dlc.toNat ≤ 8 ∧ id.toNat ≤ if ext then 0x1FFFFFFF else 0x7FF := by
  cases ext <;> simp [frameAccepted, dlcMax, stdIdMax, extIdMax, BitVec.le_def]

/-- What `ConstructFrame` rejects, in numbers. -/
theorem frameAccepted_eq_false_iff {id : Word32} {ext : Bool} {dlc : Nibble} :
    frameAccepted id ext dlc = false ↔ 8 < dlc.toNat ∨ (if ext then 0x1FFFFFFF else 0x7FF) < id.toNat := by
  rw [← Bool.not_eq_true, frameAccepted_iff]
  omega

/-- Byte `i` of the eight is byte `i` of the list they came from, zero past its end. -/
theorem getElem?_toList_ofList (l : List Byte) {i : Nat} (hi : i < 8) :
    (Data8.ofList l).toList[i]? = some (l.getD i 0) := by
  interval_cases i <;> rfl

/-- The kept bytes are as they were, the others zero (R24). -/
theorem getElem?_toList_keep (n : Nat) (d : Data8) {i : Nat} (hi : i < 8) :
    (d.keep n).toList[i]? = some (if i < n then d.toList.getD i 0 else 0) := by
  rw [Data8.keep, getElem?_toList_ofList _ hi, List.getD_eq_getElem?_getD, List.getElem?_take]
  split
  · rw [List.getD_eq_getElem?_getD]
  · rfl

/-- The data bytes `ConstructFrame` writes (R24). -/
theorem getElem?_toList_builtFrame_data (id : Word32) (ext rtr : Bool) (dlc : Nibble) (data : Data8) {i : Nat}
    (hi : i < 8) : (builtFrame id ext rtr dlc data).data.toList[i]? =
      some (if rtr = false ∧ i < dlc.toNat then data.toList.getD i 0 else 0) := by
  cases rtr with
  | false => simpa [builtFrame] using getElem?_toList_keep dlc.toNat data hi
  | true => interval_cases i <;> rfl

/-- An accepted identifier fits the register's 29 bits. -/
theorem builtFrame_id_toNat {id : Word32} {ext rtr : Bool} {dlc : Nibble} {data : Data8}
    (h : frameAccepted id ext dlc = true) : (builtFrame id ext rtr dlc data).id.toNat = id.toNat := by
  obtain ⟨-, hid⟩ := frameAccepted_iff.1 h
  have hlt : id.toNat < 2 ^ 29 := by split at hid <;> omega
  rw [builtFrame, BitVec.toNat_setWidth, Nat.mod_eq_of_lt hlt]

/-- Settles O29: rejected or accepted, by the one condition R24 checks. -/
theorem constructFrameChecksThenWritesWhole : Obligations.ConstructFrameChecksThenWritesWhole := by
  refine ⟨fun s id ext rtr dlc data herr hbad => ?_, fun s id ext rtr dlc data hdlc hstd hext => ?_⟩
  · have hrej : frameAccepted id ext dlc = false := by
      rw [frameAccepted_eq_false_iff]
      cases ext <;> simpa using hbad
    rw [constructFrame_raised hrej, raise_of_noError herr]
    rfl
  · have hacc : frameAccepted id ext dlc = true := by
      rw [frameAccepted_iff]
      cases ext
      · exact ⟨hdlc, hstd rfl⟩
      · exact ⟨hdlc, hext rfl⟩
    exact ⟨builtFrame id ext rtr dlc data, constructFrame_ok hacc, builtFrame_id_toNat hacc, rfl, rfl, rfl,
      fun i hi => getElem?_toList_builtFrame_data id ext rtr dlc data hi⟩

/-- Settles O26: every field parses, so `Decode` ends in `ConstructFrame`, which rejects the identifier. -/
theorem identifierOutOfRangeIsMalformed : Obligations.IdentifierOutOfRangeIsMalformed := by
  intro s c mk ext rtr ids data tail vs l dlc ds hc hk hlen hn hids hl hdlc hdata hds hid
  have hrej : frameAccepted (identValue vs) ext dlc = false := frameAccepted_eq_false_iff.2 (.inr hid)
  rw [exec_frameCommand hc hk]
  refine runFrame_error (by simpa [lineMax] using hlen) (by simp) ?_
  rw [decodeFrame_good (rest := tail ++ [cr]) (begun_holds _ s) (by simp [commandLine]) hk hn hids hl
    (by simpa [dlcMax, BitVec.le_def] using hdlc) hdata hds]
  exact constructFrame_raised hrej

/-! ### A frame's line determines the frame -/

theorem hexChar_injective : Function.Injective hexChar := fun m n h =>
  Option.some.inj (by rw [← hexVal_hexChar m, h, hexVal_hexChar])

/-- Values that fit their digits and have the same digits are equal. -/
theorem hexDigits_inj {n : Nat} {v w : Word32} (hn : n ≤ 8) (hv : v.toNat < 16 ^ n) (hw : w.toNat < 16 ^ n)
    (h : hexDigits n v = hexDigits n w) : v = w := by
  have hnibbles : nibblesOf n v = nibblesOf n w :=
    Option.some.inj (by rw [← hexVals_hexDigits, h, hexVals_hexDigits])
  rw [← identValue_nibblesOf hn hv, hnibbles, identValue_nibblesOf hn hw]

theorem flatMap_byteDigits_injective : Function.Injective (List.flatMap byteDigits) := fun xs ys h =>
  Option.some.inj (by rw [← hexBytes_digits xs, h, hexBytes_digits])

theorem leadChar_inj {e r e' r' : Bool} (h : leadChar e r = leadChar e' r') : e = e' ∧ r = r' := by
  have hk : some (e, r) = some (e', r') := by rw [← frameKind_leadChar, h, frameKind_leadChar]
  simpa using hk

theorem idNibbles_le_eight (ext : Bool) : idNibbles ext ≤ 8 := by cases ext <;> decide

/-- A well-formed identifier fits the digits of its kind. -/
theorem id_lt_of_wf {f : CanFrame} (h : f.wf = true) : (f.id.setWidth 32).toNat < 16 ^ idNibbles f.ext := by
  obtain ⟨-, hid⟩ := frameAccepted_iff.1 ((frameAccepted_port f).trans h)
  have hrange : ∀ ext : Bool, (if ext then 0x1FFFFFFF else 0x7FF) < 16 ^ idNibbles ext := by decide
  exact Nat.lt_of_le_of_lt hid (hrange f.ext)

/-- The parts of two equal lines are equal. -/
theorem frameLine_inj {f g : CanFrame} (h : frameLine f = frameLine g) :
    f.ext = g.ext ∧ f.rtr = g.rtr ∧
      hexDigits (idNibbles f.ext) (f.id.setWidth 32) = hexDigits (idNibbles f.ext) (g.id.setWidth 32) ∧
      f.dlc = g.dlc ∧ dataDigits f = dataDigits g := by
  obtain ⟨hlead, htail⟩ := List.cons.inj h
  obtain ⟨hext, hrtr⟩ := leadChar_inj hlead
  rw [← hext] at htail
  obtain ⟨hid, hrest⟩ := List.append_inj htail (by rw [hexDigits_length, hexDigits_length])
  obtain ⟨hdlc, hdata⟩ := List.cons.inj hrest
  exact ⟨hext, hrtr, hid, hexChar_injective hdlc, List.append_cancel_right hdata⟩

/-- Settles O37: each field is read back from its part of the line. -/
theorem encodingIsInjectiveOnFrames : Obligations.EncodingIsInjectiveOnFrames := by
  intro f g hf hg h
  rw [decodeFramePort_encode, decodeFramePort_encode] at h
  obtain ⟨hext, hrtr, hdigits, hdlc, hdata⟩ := frameLine_inj h
  have hid : f.id.setWidth 32 = g.id.setWidth 32 :=
    hexDigits_inj (idNibbles_le_eight _) (id_lt_of_wf hf) (hext ▸ id_lt_of_wf hg) hdigits
  have hid29 : f.id = g.id := by simpa using congrArg (BitVec.setWidth 29) hid
  refine ⟨hid29, hext, hrtr, hdlc, fun hr => flatMap_byteDigits_injective ?_⟩
  simpa [dataDigits, hr, ← hrtr] using hdata

/-! ### What each port leaves alone -/

/-- Every command is one handler in the frame of a dispatch transaction (R141). -/
theorem exec_eq_runCommand {c : Byte} {mk : List Byte → Instr} (hc : commandTable c = some mk) :
    ∃ handler, ∀ args s, exec (mk args) s = runCommand (commandLine c args) handler s := by
  have hm := lookupRow_mem hc
  simp only [commandRows, List.cons_append, List.nil_append, List.mem_cons, Prod.mk.injEq, List.not_mem_nil, or_false]
    at hm
  rcases hm with h | h | h | h | h | h | h | h | h | h | h | h | h | h | h | h | h | h | h | h | h <;>
    obtain ⟨rfl, rfl⟩ := h <;> exact ⟨_, fun _ _ => rfl⟩

/-- A command that completes carried out a sound result on its line. -/
theorem exec_command_inv {i : Instr} {s s' : State} (hi : i.rawFrame = none) (h : exec i s = .next s') :
    ∃ c r, CommandResult.Sound r c s ∧ s' = r.after s (encode i) := by
  obtain ⟨c, args, mk, hc, rfl⟩ := commandTable_of_rawFrame hi
  rw [(encode_of_commandTable hc args).1]
  rcases Nat.lt_or_ge lineMax (commandLine c args).length with hlong | hline
  · obtain ⟨handler, hrun⟩ := exec_eq_runCommand hc
    rw [hrun, runCommand_tooLong hlong] at h
    cases h
  obtain ⟨r, hr, hrun⟩ := exec_command hc (by simpa using hline) s
  obtain ⟨hfits, hfull⟩ := hrun s ⟨rfl, rfl, rfl⟩
  rcases Nat.lt_or_ge r.bytes.length s.cfg.respCap with hb | hb
  · rw [hfits hb] at h
    cases h
    exact ⟨c, r, hr, rfl⟩
  · rw [hfull hb] at h
    cases h

/-- Writing `bs` from 0 leaves every address at or past its end. -/
theorem Memory.read_writeAll_of_length_le {m : Memory} {bs : List Byte} {a : Nat} (h : bs.length ≤ a) :
    (m.writeAll 0 bs).read a = m.read a := by
  rw [Memory.read_writeAll, if_neg (by omega)]

/-- Settles O40: a command's result writes `RESP` below `RLEN`, and a frame it writes it transmits. -/
theorem commandsLeaveTheEncodePortAlone : Obligations.CommandsLeaveTheEncodePortAlone := by
  intro i s s' hi h
  obtain ⟨c, r, hr, rfl⟩ := exec_command_inv hi h
  refine ⟨rfl, rfl, rfl, rfl, rfl, rfl, rfl, rfl, rfl, fun a ha => ?_, ?_⟩
  · exact Memory.read_writeAll_of_length_le (by rw [List.length_append]; exact ha)
  · cases hf : r.frame with
    | none => left; simp [CommandResult.after, afterDispatch, hf]
    | some f =>
      obtain ⟨-, -, hfx, -⟩ := hr.frame f hf
      right; simp [CommandResult.after, afterDispatch, hf, hfx]

/-- Settles O41: an encode transaction writes `ERR`, `FRAME`, and `OUT` below `OLEN`. -/
theorem emittedFormsLeaveTheDispatchPortAlone : Obligations.EmittedFormsLeaveTheDispatchPortAlone := by
  intro i raw s s' hi h
  rw [exec_emitted hi] at h
  cases hw : raw.wf with
  | true =>
    rw [encodeTransaction_wf hw] at h
    cases h
    exact ⟨rfl, rfl, rfl, rfl, rfl, rfl, rfl, rfl, rfl, rfl, rfl, fun a ha => Memory.read_writeAll_of_length_le ha⟩
  | false =>
    rw [encodeTransaction_illFormed hw] at h
    cases h
    exact ⟨rfl, rfl, rfl, rfl, rfl, rfl, rfl, rfl, rfl, rfl, rfl, fun _ _ => rfl⟩

/-! ### Runs -/

/-- Settles O47: the build is all a run takes from the state, by induction on its triggers (`observeRun_eq_mapM`). -/
theorem runsHaveNoMemory : Obligations.RunsHaveNoMemory := observeRun_eq_mapM

/-- Settles O49: first and last are both what the trigger shows alone. -/
theorem dispatchIsIdempotent : Obligations.DispatchIsIdempotent := by
  intro s t between x y mid _ h
  rw [observeRun_eq_mapM, List.mapM_cons, List.mapM_append] at h
  cases halone : observeAlone s.cfg t with
  | none => simp [halone] at h
  | some o =>
    cases hmid : between.mapM (observeAlone s.cfg) with
    | none => simp [halone, hmid] at h
    | some os =>
      have hlist : o = x ∧ os ++ [o] = mid ++ [y] := by simpa [halone, hmid] using h
      obtain ⟨hx, hlist⟩ := hlist
      obtain ⟨-, hy⟩ := List.append_inj' hlist rfl
      exact hx.symm.trans (List.cons.inj hy).1

theorem finalState_nil (s : State) : finalState [] s = some (endRun s) := by
  rw [finalState, step_idle rfl]
  rfl

theorem finalState_cons_of_next {t : Trigger} {ts : List Trigger} {s u : State}
    (h : step (s.withSchedule (t :: ts)) = .next u) : finalState (t :: ts) s = finalState ts u := by
  rw [finalState, h]

/-- A run that comes to its end ends in the reset state of its build. -/
theorem finalState_eq_endRun {ts : List Trigger} {s f : State} (h : finalState ts s = some f) : f = endRun s := by
  induction ts generalizing s with
  | nil =>
    rw [finalState_nil] at h
    exact (Option.some.inj h).symm
  | cons t ts ih =>
    cases hstep : step (s.withSchedule (t :: ts)) with
    | next u =>
      have hcfg : u.cfg = s.cfg := (step_next_cons rfl hstep).2
      rw [finalState_cons_of_next hstep] at h
      exact (ih h).trans (endRun_congr hcfg)
    | fault r => simp [finalState, hstep] at h
    | refused r => simp [finalState, hstep] at h

/-- A run of legal triggers comes to its end. -/
theorem finalState_of_legal {ts : List Trigger} {s : State} (h : ∀ t ∈ ts, Trigger.legal s.cfg t) :
    ∃ f, finalState ts s = some f := by
  induction ts generalizing s with
  | nil => exact ⟨_, finalState_nil s⟩
  | cons t ts ih =>
    obtain ⟨ht, hts⟩ := List.forall_mem_cons.1 h
    obtain ⟨u, hu⟩ := step_next_of_legal (s := s.withSchedule (t :: ts)) rfl ht
    have hcfg : u.cfg = s.cfg := (step_next_cons rfl hu).2
    rw [finalState_cons_of_next hu]
    exact ih (hcfg ▸ hts)

/-- Settles O51: a legal run goes on to its end, and the step at the end of any run is `endRun`. -/
theorem runsEndInTheResetState : Obligations.RunsEndInTheResetState := by
  refine fun ts s => ⟨finalState_of_legal, fun f hf => ?_⟩
  cases finalState_eq_endRun hf
  exact ⟨rfl, rfl, rfl, rfl, rfl, rfl, rfl, rfl⟩

end Machine
end Sys2Proof
end

section
/-! PROOFS of the memory statements: what is refused, the access primitives, and that neighbouring transactions commute. -/

namespace Sys2Proof
namespace Machine

/-! ### Refusals -/

/-- Settles O10: the decoder checks the length before it looks at a byte (R59). -/
theorem overlongChunkIsRefused : Obligations.OverlongChunkIsRefused := fun _ _ _ _ _ hs hlong => step_tooLong hs hlong

/-- Status bytes that fill `RESP` leave no room for the terminator, and more than fill it do not fit at all. -/
theorem runStatus_refused {line : List Byte} {s : State} (hl : line.length ≤ lineMax)
    (hst : s.cfg.respCap ≤ s.statusBytes.length) : runCommand line handleStatus s = .refused .responseFull := by
  rcases Nat.eq_or_lt_of_le hst with heq | hlt
  · exact runCommand_full hl hst (handleStatus_begun heq.ge)
  · exact runCommand_refused hl (handleStatus_full hlt)

/-- Settles O16: `F` is the status handler in the frame of a dispatch transaction (R182). -/
theorem overlongStatusIsRefused : Obligations.OverlongStatusIsRefused := by
  intro s args hfit hst
  have hl : (commandLine 0x46#8 args).length ≤ lineMax := by rw [commandLine_length]; exact hfit
  exact runStatus_refused hl hst

/-- Of all commands only `F` can answer bytes that leave no room for the terminator, and only by its status bytes. -/
theorem CommandResult.Sound.status_of_full {r : CommandResult} {c : Byte} {s : State} (hr : r.Sound c s)
    (hfull : s.cfg.respCap ≤ r.bytes.length) : c = 0x46#8 ∧ s.cfg.respCap ≤ s.statusBytes.length := by
  have hst : s.cfg.respCap ≤ s.statusBytes.length :=
    Nat.le_of_not_lt fun hroom => Nat.not_lt.2 hfull (hr.bytes_lt_respCap hroom)
  refine ⟨?_, hst⟩
  rcases hr.bytes with hb | ⟨-, hb⟩ | ⟨hc, -⟩ | ⟨-, hb⟩
  · have := respCap_pos s.cfg
    rw [hb, List.length_nil] at hfull
    omega
  · exact absurd (versionBytes_lt_respCap s.cfg) (Nat.not_lt.2 (hb ▸ hfull))
  · exact hc
  · have := respCap_ge_nine s.cfg
    rw [hb, hexDigits_length] at hfull
    omega

/-- The step of a chunk completes, or is refused because the chunk is too long, or because it is an `F` whose status
bytes leave no room for the terminator (R59, R153). -/
theorem step_chunk_next_or_refused {s : State} {line : List Byte} {dev : Word32} {st : List Byte} {rest : List Trigger}
    (hs : s.schedule = .chunk line dev st :: rest) :
    (∃ u, step s = .next u) ∨ (step s = .refused .chunkTooLong ∧ lineMax < line.length) ∨
      (step s = .refused .responseFull ∧ line.head? = some 0x46#8 ∧ s.cfg.respCap ≤ st.length) := by
  rcases Nat.lt_or_ge lineMax line.length with hlong | hline
  · exact .inr (.inl ⟨step_tooLong hs hlong, hlong⟩)
  rcases step_chunk_shows (s := s) dev st hline with ⟨err, -, -, hrun⟩ | ⟨c, r, hc, hr, hrun⟩
  · exact .inl ⟨_, hrun s rest hs⟩
  · obtain ⟨hnext, hfull⟩ := hrun s rest hs rfl
    rcases Nat.lt_or_ge r.bytes.length s.cfg.respCap with hroom | hnone
    · exact .inl ⟨_, hnext hroom⟩
    · obtain ⟨rfl, hst⟩ := hr.status_of_full hnone
      exact .inr (.inr ⟨hfull hnone, hc, hst⟩)

/-- What every step comes to: the end of the run and a raw frame always complete, a chunk completes or is refused for one
of the two reasons. -/
theorem step_next_or_refused (s : State) :
    (∃ u, step s = .next u) ∨ ∃ line dev st rest, s.schedule = .chunk line dev st :: rest ∧
      ((step s = .refused .chunkTooLong ∧ lineMax < line.length) ∨
        (step s = .refused .responseFull ∧ line.head? = some 0x46#8 ∧ s.cfg.respCap ≤ st.length)) := by
  cases hs : s.schedule with
  | nil => exact .inl ⟨_, step_idle hs⟩
  | cons t rest =>
    cases t with
    | frame raw => exact .inl (step_next_of_legal hs trivial)
    | chunk line dev st => exact (step_chunk_next_or_refused hs).imp_right (⟨line, dev, st, rest, rfl, ·⟩)

/-- Settles O50: by what the step comes to (`step_next_or_refused`); a completed step is neither a fault nor a refusal. -/
theorem stepsStopOnlyOnIllegalTriggers : Obligations.StepsStopOnlyOnIllegalTriggers := by
  intro s
  rcases step_next_or_refused s with ⟨u, hu⟩ | ⟨line, dev, st, rest, hs, ⟨hstep, hlong⟩ | ⟨hstep, hletter, hst⟩⟩
  · rw [hu]
    exact ⟨nofun, nofun⟩
  · rw [hstep]
    exact ⟨nofun, fun r hr => by cases hr; exact ⟨line, dev, st, rest, hs, .inl ⟨rfl, hlong⟩⟩⟩
  · rw [hstep]
    exact ⟨nofun, fun r hr => by cases hr; exact ⟨line, dev, st, rest, hs, .inr ⟨rfl, hletter, hst⟩⟩⟩

/-! ### The access primitives -/

theorem holds_holding (s : State) (line : List Byte) : Holds (s.holding line) line := ⟨rfl, rfl⟩

/-- Settles O30: the character at `POS` is absent, not hexadecimal, or read (R122). -/
theorem nibbleAtPosChecksPresenceThenValue : Obligations.NibbleAtPosChecksPresenceThenValue := by
  intro s line herr
  have hline := holds_holding s line
  have hraise : ∀ k, raise k (s.holding line) = (s.holding line).withErr k := fun _ => raise_of_noError herr
  refine ⟨fun hpos => ?_, fun b hb hv => ?_, fun b v hb hv => nibbleAtPos_ok hline hb hv⟩
  · rw [nibbleAtPos_absent hline hpos, hraise]
  · rw [nibbleAtPos_bad hline hb hv, hraise]

/-- Settles O31: below the capacity each append is one `Memory.write` at its cursor (R57, R58). -/
theorem appendsWriteOneByteAtTheCursor : Obligations.AppendsWriteOneByteAtTheCursor :=
  ⟨fun s b hroom => ⟨s.resp.write s.rlen b, respAppend_next hroom, Memory.read_write_same _ _ _,
      fun _ ha => Memory.read_write_other _ b ha⟩,
    fun _ _ hfull => respAppend_full hfull,
    fun s b hroom => ⟨s.out.write s.olen b, outAppend_next hroom, Memory.read_write_same _ _ _,
      fun _ ha => Memory.read_write_other _ b ha⟩,
    fun _ _ hfull => outAppend_full hfull⟩

/-! ### Neighbouring transactions -/

/-- A run of two triggers shows of each what it shows alone (R20). -/
theorem observeRun_pair_iff {s : State} {a b : Trigger} {x y : Observation} :
    observeRun [a, b] s = some [x, y] ↔ observeAlone s.cfg a = some x ∧ observeAlone s.cfg b = some y := by
  rw [observeRun_eq_mapM, List.mapM_cons, List.mapM_cons, List.mapM_nil]
  cases observeAlone s.cfg a with
  | none => simp
  | some o => cases observeAlone s.cfg b <;> simp

/-- Settles O48: what each of the two shows alone does not depend on their order. -/
theorem neighbouringTransactionsCommute : Obligations.NeighbouringTransactionsCommute := by
  intro s a b x y h
  obtain ⟨ha, hb⟩ := observeRun_pair_iff.1 h
  exact observeRun_pair_iff.2 ⟨hb, ha⟩

end Machine
end Sys2Proof
end

section
/-! PROOFS of the encoding statements: the hexadecimal maps, what a decoded chunk is, what each good or bad line does, and
that a line `Decode` accepts is what `Encode` gives back. -/

namespace Sys2Proof

/-! ### The hexadecimal maps and the decoder -/

section HexVal
variable {b : Byte}

/-! `hexVal` by the range its byte lies in (R74). -/

theorem hexVal_digit (h : 0x30#8 ≤ b ∧ b ≤ 0x39#8) : hexVal b = some ((b - 0x30#8).setWidth 4) := if_pos h

theorem hexVal_upper (h : 0x41#8 ≤ b ∧ b ≤ 0x46#8) : hexVal b = some ((b - 0x41#8 + 10#8).setWidth 4) := by
  have hdigit : ¬ (0x30#8 ≤ b ∧ b ≤ 0x39#8) := by bv_omega
  rw [hexVal, if_neg hdigit, if_pos h]

theorem hexVal_lower (h : 0x61#8 ≤ b ∧ b ≤ 0x66#8) : hexVal b = some ((b - 0x61#8 + 10#8).setWidth 4) := by
  have hdigit : ¬ (0x30#8 ≤ b ∧ b ≤ 0x39#8) := by bv_omega
  have hupper : ¬ (0x41#8 ≤ b ∧ b ≤ 0x46#8) := by bv_omega
  rw [hexVal, if_neg hdigit, if_neg hupper, if_pos h]

theorem hexVal_none (hdigit : ¬ (0x30#8 ≤ b ∧ b ≤ 0x39#8)) (hupper : ¬ (0x41#8 ≤ b ∧ b ≤ 0x46#8))
    (hlower : ¬ (0x61#8 ≤ b ∧ b ≤ 0x66#8)) : hexVal b = none := by
  rw [hexVal, if_neg hdigit, if_neg hupper, if_neg hlower]

end HexVal

/-- Settles O1: each range of R74 is one branch of `hexVal`, each half of R75 one of `hexChar`. -/
theorem hexMapsFollowTheTables : Obligations.HexMapsFollowTheTables := by
  refine ⟨fun b hlo hhi => ?_, fun b hlo hhi => ?_, fun b hlo hhi => ?_, fun b hdigit hupper hlower => ?_,
    fun n hn => ?_, fun n hn => ?_⟩
  · exact (hexVal_digit ⟨hlo, hhi⟩).trans (congrArg some (by bv_omega))
  · exact (hexVal_upper ⟨hlo, hhi⟩).trans (congrArg some (by bv_omega))
  · exact (hexVal_lower ⟨hlo, hhi⟩).trans (congrArg some (by bv_omega))
  · exact hexVal_none hdigit hupper hlower
  · exact (if_pos hn).trans (by bv_omega)
  · exact (if_neg (Nat.not_le.2 hn)).trans (by bv_omega)

/-- Settles O2: a character's value gives that character up to case (`hexChar_hexVal`), and a nibble's gives the nibble. -/
theorem hexMapsAreInverseUpToCase : Obligations.HexMapsAreInverseUpToCase :=
  ⟨hexVal_hexChar, fun _ _ => Machine.hexChar_hexVal⟩

/-- Settles O4: each chunk is the line of its letter's row with the operand it shows (`decodeLine_commandLine`). -/
theorem specLinesDecode : Obligations.SpecLinesDecode :=
  ⟨decodeLine_commandLine (args := [0x36#8]) rfl (by decide),
    decodeLine_commandLine (args := [0x31#8, 0x32#8, 0x33#8, 0x32#8, 0x38#8, 0x41#8, 0x42#8, 0x31#8]) rfl (by decide),
    decodeLine_commandLine (args := [0x31#8, 0x32#8, 0x33#8, 0x30#8]) rfl (by decide),
    decodeLine_commandLine (args := []) rfl (by decide), decodeLine_commandLine (args := []) rfl (by decide),
    decodeLine_commandLine (args := [0x39#8]) rfl (by decide), decodeLine_commandLine (args := []) rfl (by decide), rfl⟩

/-- Settles O6: a chunk that decodes is the line of its row (`decodeLine_ok`), and so is the encoding. -/
theorem decodedLineIsTheEncoding : Obligations.DecodedLineIsTheEncoding := by
  intro line i h
  obtain ⟨c, args, mk, hc, rfl, rfl, hfit⟩ := decodeLine_ok h
  obtain ⟨henc, hport, hwf⟩ := encode_of_commandTable hc args
  exact ⟨henc, hwf.trans (decide_eq_true hfit), hport⟩

/-- An operand that fits a chunk with its letter and CR makes a line that does (R70). -/
theorem commandLine_fits {args : List Byte} (hfit : args.length + 2 ≤ lineMax) (c : Byte) :
    (commandLine c args).length ≤ lineMax := by
  rwa [commandLine_length]

/-- The bytes there are, kept, are those bytes. -/
theorem Data8.keep_ofList {l : List Byte} (h : l.length ≤ 8) : (ofList l).keep l.length = ofList l := by
  rw [keep, take_ofList l h]

namespace Machine

/-! ### Commands that read no frame -/

/-- A command that only issues an effect ignores its operand (R91). -/
theorem runCommand_issueOnly {args : List Byte} (hfit : args.length + 2 ≤ lineMax) (c : Byte) (e : Effect) (s : State) :
    runCommand (commandLine c args) (issueOnly e) s =
      .next (afterDispatch s (commandLine c args) [] (some e) .noError s.pos s.frame) :=
  runCommand_next (commandLine_fits hfit c) (respCap_pos _) (issueOnly_begun e _ s)

/-- Settles O13: the five commands are `issueOnly` with their effects, and no row lists the lower-case letters. -/
theorem bareCommandsIssueTheirEffect : Obligations.BareCommandsIssueTheirEffect :=
  ⟨fun s _ hfit => ⟨runCommand_issueOnly hfit 0x4F#8 .openBus s, runCommand_issueOnly hfit 0x4C#8 .listen s,
      runCommand_issueOnly hfit 0x43#8 .closeBus s, runCommand_issueOnly hfit 0x50#8 .poll s,
      runCommand_issueOnly hfit 0x41#8 .auto s⟩,
    rfl, rfl, rfl, rfl, rfl⟩

/-- Settles O15: status bytes that leave room for the terminator are appended whole (R182). -/
theorem readStatusAnswersTheStatusBytes : Obligations.ReadStatusAnswersTheStatusBytes := by
  intro s args hfit hroom
  exact runCommand_next (commandLine_fits hfit _) hroom (handleStatus_begun (Nat.le_of_lt hroom))

/-- Settles O17: the version bytes always leave room for the terminator (R7, R200), and no row lists `v`. -/
theorem versionAnswersTheVersionBytes : Obligations.VersionAnswersTheVersionBytes := by
  refine ⟨fun s args hfit => ?_, rfl⟩
  exact runCommand_next (commandLine_fits hfit _) (versionBytes_lt_respCap s.cfg) (handleVersion_begun _ s)

/-- The preset digit of an `S` line is the first operand character; the CR that stands there without one has no value. -/
theorem commandLine_preset (c : Byte) (args : List Byte) :
    (commandLine c args)[1]?.bind hexVal = args.head?.bind hexVal := by
  cases args <;> rfl

/-- `S` with a preset digit of at most 8 (R160). -/
theorem handleSetup_preset {args : List Byte} {n : Nibble} (hn : args.head?.bind hexVal = some n) (hle : n.toNat ≤ 8)
    (s : State) : handleSetup (begun (commandLine 0x53#8 args) s) =
      .next (handled s (commandLine 0x53#8 args) [] (some (.setup n)) .noError 1 s.frame) := by
  rw [handleSetup_begun (by simp), commandLine_preset, hn]
  exact if_neg (Nat.not_lt.2 hle)

/-- `S` without one (R160). -/
theorem handleSetup_noPreset {args : List Byte} (hbad : ∀ n, args.head?.bind hexVal = some n → 8 < n.toNat) (s : State) :
    handleSetup (begun (commandLine 0x53#8 args) s) =
      .next (handled s (commandLine 0x53#8 args) [] none .malformedFrame 1 s.frame) := by
  rw [handleSetup_begun (by simp), commandLine_preset]
  cases hn : args.head?.bind hexVal with
  | none => rfl
  | some n => exact if_pos (hbad n hn)

/-- Settles O14: by whether the first operand character is a preset digit. -/
theorem setupTakesOnePresetDigit : Obligations.SetupTakesOnePresetDigit := by
  refine ⟨fun s c tail n hfit hn hle => ?_, fun s args hfit hbad => ?_⟩
  · exact runCommand_next (commandLine_fits hfit _) (respCap_pos _) (handleSetup_preset (args := c :: tail) hn hle s)
  · exact runCommand_next (commandLine_fits hfit _) (respCap_pos _) (handleSetup_noPreset hbad s)

/-! ### Frame lines -/

/-- A frame line with every field in range transmits the frame it spells, whatever follows the fields (R91, R170). -/
theorem exec_goodFrameLine {c l : Byte} {mk : List Byte → Instr} {ext rtr : Bool} {ids data ds : List Byte}
    {vs : List Nibble} {dlc : Nibble} (hc : commandTable c = some mk) (hk : frameKind c = some (ext, rtr))
    (hn : ids.length = idNibbles ext) (hids : hexVals ids = some vs) (hl : hexVal l = some dlc)
    (hdata : hexBytes data = some ds) (hds : ds.length = if rtr then 0 else dlc.toNat)
    (hacc : frameAccepted (identValue vs) ext dlc = true) (tail : List Byte)
    (hfit : (ids ++ l :: (data ++ tail)).length + 2 ≤ lineMax) (s : State) :
    let f := builtFrame (identValue vs) ext rtr dlc (Data8.ofList ds)
    exec (mk (ids ++ l :: (data ++ tail))) s =
      .next (afterDispatch s (commandLine c (ids ++ l :: (data ++ tail))) [] (some (.transmit f)) .noError
        (ids.length + 2 + data.length) f) := by
  have hdlc : dlc ≤ dlcMax := (frameAccepted_iff.1 hacc).1
  rw [exec_frameCommand hc hk]
  refine runFrame_answer (commandLine_fits hfit c) ?_
  rw [decodeFrame_good (rest := tail ++ [cr]) (begun_holds _ s) (by simp [commandLine]) hk hn hids hl hdlc hdata hds]
  exact constructFrame_ok hacc

/-- The frame a good data line spells: its own bytes, then zeros (D8). -/
theorem builtFrame_data {ds : List Byte} {dlc : Nibble} (hds : ds.length = dlc.toNat) (hdlc : dlc.toNat ≤ 8)
    (id : Word32) (ext : Bool) :
    builtFrame id ext false dlc (Data8.ofList ds) =
      { id := id.setWidth 29, ext, rtr := false, dlc, data := Data8.ofList ds } := by
  have hkeep : (Data8.ofList ds).keep dlc.toNat = Data8.ofList ds := hds ▸ Data8.keep_ofList (hds ▸ hdlc)
  simp [builtFrame, hkeep]

/-- Settles O20: `exec_goodFrameLine` for the two data letters. -/
theorem dataFrameLinesAreTransmitted : Obligations.DataFrameLinesAreTransmitted := by
  intro s ids data tail l vs dlc ds hfit hids hl hdlc hdata hds
  refine ⟨fun hn hid => ?_, fun hn hid => ?_⟩
  · have hexec := exec_goodFrameLine (c := 0x74#8) (ext := false) (rtr := false) rfl rfl hn hids hl hdata hds
      (frameAccepted_iff.2 ⟨hdlc, hid⟩) tail hfit s
    rwa [builtFrame_data hds hdlc, hn] at hexec
  · have hexec := exec_goodFrameLine (c := 0x54#8) (ext := true) (rtr := false) rfl rfl hn hids hl hdata hds
      (frameAccepted_iff.2 ⟨hdlc, hid⟩) tail hfit s
    rwa [builtFrame_data hds hdlc, hn] at hexec

/-- Settles O21: `exec_goodFrameLine` for the two remote letters, whose data field is empty (R126). -/
theorem remoteFrameLinesAreTransmitted : Obligations.RemoteFrameLinesAreTransmitted := by
  intro s ids tail l vs dlc hfit hids hl hdlc
  refine ⟨fun hn hid => ?_, fun hn hid => ?_⟩
  · have hexec := exec_goodFrameLine (c := 0x72#8) (ext := false) (rtr := true) (data := []) rfl rfl hn hids hl rfl rfl
      (frameAccepted_iff.2 ⟨hdlc, hid⟩) tail hfit s
    rwa [hn] at hexec
  · have hexec := exec_goodFrameLine (c := 0x52#8) (ext := true) (rtr := true) (data := []) rfl rfl hn hids hl rfl rfl
      (frameAccepted_iff.2 ⟨hdlc, hid⟩) tail hfit s
    rwa [hn] at hexec

/-- Settles O24: `Decode` checks the DLC's range as soon as it has read it (`decodeFrame_dlcRange`). -/
theorem dlcAboveEightIsMalformed : Obligations.DlcAboveEightIsMalformed := by
  intro s c mk ext rtr ids rest vs l dlc hc hk hfit hn hids hl hlt
  rw [exec_frameCommand hc hk]
  exact runFrame_error (commandLine_fits hfit c) (by simp)
    (decodeFrame_dlcRange (rest := rest ++ [cr]) (begun_holds _ s) (by simp [commandLine]) hk hn hids hl hlt)

/-! ### The digits of a line -/

/-- What stands between the leading character and the CR of a frame's line (R95). -/
def frameDigits (f : CanFrame) : List Byte :=
  hexDigits (idNibbles f.ext) (f.id.setWidth 32) ++ hexChar f.dlc :: dataDigits f

theorem frameLine_eq (f : CanFrame) : frameLine f = leadChar f.ext f.rtr :: (frameDigits f ++ [cr]) := by
  simp [frameLine, frameDigits]

theorem frameDigits_length {f : CanFrame} (h : f.dlc ≤ dlcMax) :
    (frameDigits f).length = idNibbles f.ext + 1 + (if f.rtr then 0 else 2 * f.dlc.toNat) := by
  simp only [frameDigits, List.length_append, List.length_cons, hexDigits_length, dataDigits_length f h]
  omega

theorem hexChar_of_mem_hexDigits {n : Nat} {v : Word32} {b : Byte} (h : b ∈ hexDigits n v) : ∃ x, hexChar x = b := by
  rw [hexDigits_eq_map] at h
  obtain ⟨x, -, hx⟩ := List.mem_map.1 h
  exact ⟨x, hx⟩

theorem hexChar_of_mem_byteDigits {b d : Byte} (h : b ∈ byteDigits d) : ∃ x, hexChar x = b := by
  simp only [byteDigits, List.mem_cons, List.not_mem_nil, or_false] at h
  rcases h with rfl | rfl <;> exact ⟨_, rfl⟩

theorem hexChar_of_mem_dataDigits {f : CanFrame} {b : Byte} (h : b ∈ dataDigits f) : ∃ x, hexChar x = b := by
  rw [dataDigits] at h
  split at h
  · exact absurd h List.not_mem_nil
  · obtain ⟨d, -, hd⟩ := List.mem_flatMap.1 h
    exact hexChar_of_mem_byteDigits hd

/-- Every byte between leading character and CR is a nibble's character (R78, R80). -/
theorem hexChar_of_mem_frameDigits {f : CanFrame} {b : Byte} (h : b ∈ frameDigits f) : ∃ x, hexChar x = b := by
  rcases List.mem_append.1 h with hid | hrest
  · exact hexChar_of_mem_hexDigits hid
  rcases List.mem_cons.1 hrest with rfl | hdata
  · exact ⟨f.dlc, rfl⟩
  · exact hexChar_of_mem_dataDigits hdata

@[simp] theorem upperHex_hexChar (n : Nibble) : upperHex (hexChar n) = hexChar n :=
  (hexChar_hexVal (hexVal_hexChar n)).symm

/-- Settles O35: what stands between leading character and CR are characters of nibbles (`hexChar_of_mem_frameDigits`). -/
theorem emittedLinesFollowTheGrammar : Obligations.EmittedLinesFollowTheGrammar := by
  intro f hf
  refine ⟨frameDigits f, (decodeFramePort_encode f).trans (frameLine_eq f), frameDigits_length (dlc_le_of_wf hf),
    fun b hb => ?_⟩
  obtain ⟨x, rfl⟩ := hexChar_of_mem_frameDigits hb
  exact ⟨by rw [hexVal_hexChar]; rfl, upperHex_hexChar x, hexChar_ne_cr x⟩

/-! ### The line of a decoded frame -/

/-- The letters of the four kinds are no hexadecimal letters. -/
@[simp] theorem upperHex_leadChar (ext rtr : Bool) : upperHex (leadChar ext rtr) = leadChar ext rtr := by
  cases ext <;> cases rtr <;> rfl

/-- An accepted identifier is not cut by the register's 29 bits (R128). -/
theorem builtFrame_id_setWidth {id : Word32} {ext rtr : Bool} {dlc : Nibble} {data : Data8}
    (h : frameAccepted id ext dlc = true) : (builtFrame id ext rtr dlc data).id.setWidth 32 = id := by
  apply BitVec.eq_of_toNat_eq
  rw [BitVec.toNat_setWidth, builtFrame_id_toNat h, Nat.mod_eq_of_lt id.isLt]

/-- The data characters of a frame built from the bytes it has are the digits of those bytes. -/
theorem dataDigits_builtFrame {ds : List Byte} {rtr : Bool} {dlc : Nibble} (hds : ds.length = if rtr then 0 else dlc.toNat)
    (hdlc : dlc.toNat ≤ 8) (id : Word32) (ext : Bool) :
    dataDigits (builtFrame id ext rtr dlc (Data8.ofList ds)) = ds.flatMap byteDigits := by
  cases rtr with
  | true =>
    obtain rfl : ds = [] := List.length_eq_zero_iff.1 hds
    rfl
  | false =>
    have hlen : ds.length = dlc.toNat := hds
    have htake : (Data8.ofList ds).toList.take dlc.toNat = ds := hlen ▸ Data8.take_ofList ds (hlen ▸ hdlc)
    rw [builtFrame_data hlen hdlc]
    simp [dataDigits, htake]

/-- The digits of the frame that hexadecimal text spells are that text in upper case (R76). -/
theorem frameDigits_builtFrame {ids data ds : List Byte} {l : Byte} {vs : List Nibble} {dlc : Nibble} {ext rtr : Bool}
    (hn : ids.length = idNibbles ext) (hids : hexVals ids = some vs) (hl : hexVal l = some dlc)
    (hdata : hexBytes data = some ds) (hds : ds.length = if rtr then 0 else dlc.toNat)
    (hacc : frameAccepted (identValue vs) ext dlc = true) :
    frameDigits (builtFrame (identValue vs) ext rtr dlc (Data8.ofList ds)) = (ids ++ l :: data).map upperHex := by
  have hid : hexDigits (idNibbles ext) (identValue vs) = ids.map upperHex :=
    hn ▸ hexDigits_identValue hids (hn ▸ idNibbles_le_eight ext)
  rw [frameDigits, builtFrame_id_setWidth hacc, dataDigits_builtFrame hds (frameAccepted_iff.1 hacc).1,
    flatMap_byteDigits hdata, List.map_append, List.map_cons, ← hexChar_hexVal hl, ← hid]
  rfl

/-- Settles O39: `Decode` accepts only text of the grammar (`decodeFrame_inv`), and the digits of the frame it wrote are
that text in upper case. -/
theorem decodedLineIsReEncodedUpToCase : Obligations.DecodedLineIsReEncodedUpToCase := by
  intro s s' line h
  obtain ⟨c, ids, l, data, rest, vs, dlc, ds, ext, rtr, rfl, hk, hn, hids, hl, hdata, hds, hacc, rfl⟩ :=
    decodeFrame_inv (holds_holding s line) h
  refine ⟨builtFrame_wf hacc, ?_⟩
  have hconsumed : (c :: (ids ++ l :: (data ++ rest))).take (ids.length + 2 + data.length) =
      leadChar ext rtr :: (ids ++ l :: data) := by
    rw [leadChar_of_frameKind hk, show c :: (ids ++ l :: (data ++ rest)) = (c :: (ids ++ l :: data)) ++ rest by simp]
    exact List.take_left' (by simp; omega)
  rw [State.withFrame_frame, State.withFrame_pos, State.withPos_pos, hconsumed, List.map_cons, upperHex_leadChar,
    ← frameDigits_builtFrame hn hids hl hdata hds hacc, decodeFramePort_encode, frameLine_eq]
  rfl

end Machine
end Sys2Proof
end

section
/-! PROOFS of the encoder statements: where each byte of an emitted line stands, what an encode transaction leaves, and
that an emitted line comes back at the dispatch port as the frame it came from. -/

namespace Sys2Proof

/-! ### Well-formed frames in numbers -/

/-- R23 in numbers. -/
theorem CanFrame.wf_iff {f : CanFrame} : f.wf = true ↔ f.dlc.toNat ≤ 8 ∧ (f.ext = false → f.id.toNat ≤ 0x7FF) := by
  have hid : (f.id.setWidth 32).toNat = f.id.toNat := BitVec.toNat_setWidth_of_le (by decide)
  rw [← Machine.frameAccepted_port, Machine.frameAccepted_iff, hid]
  cases f.ext with
  | false => simp
  | true =>
    have h29 : f.id.toNat ≤ 0x1FFFFFFF := Nat.le_of_lt_succ f.id.isLt
    simp [h29]

/-! ### Digits by their index -/

/-- The character of nibble `k` stands `k` places before the last (R78). -/
theorem getElem?_hexDigits (v : Word32) {n k : Nat} (hk : k < n) :
    (hexDigits n v)[n - 1 - k]? = some (hexChar (nibbleAt v k)) := by
  induction n with
  | zero => omega
  | succ n ih =>
    rcases Nat.lt_or_eq_of_le (Nat.le_of_lt_succ hk) with hlt | rfl
    · rw [show n + 1 - 1 - k = n - 1 - k + 1 by omega, hexDigits, List.getElem?_cons_succ, ih hlt]
    · simp [hexDigits]

theorem nibbleAt_eq_ofNat (v : Word32) (k : Nat) : nibbleAt v k = BitVec.ofNat 4 (v.toNat / 16 ^ k % 16) := by
  rw [← Machine.nibbleAt_toNat, BitVec.ofNat_toNat, BitVec.setWidth_eq]

/-- The two characters of byte `i` stand at twice its index (R80). -/
theorem getElem?_flatMap_byteDigits {bs : List Byte} {i : Nat} {b : Byte} (hb : bs[i]? = some b) :
    (bs.flatMap byteDigits)[2 * i]? = some (hexChar (b.extractLsb' 4 4)) ∧
      (bs.flatMap byteDigits)[2 * i + 1]? = some (hexChar (b.extractLsb' 0 4)) := by
  induction bs generalizing i with
  | nil => simp at hb
  | cons c bs ih =>
    cases i with
    | zero => cases hb; exact ⟨rfl, rfl⟩
    | succ i => exact ih hb

/-- The high and the low nibble of a byte, in numbers. -/
theorem byte_nibbles_eq_ofNat (b : Byte) : b.extractLsb' 4 4 = BitVec.ofNat 4 (b.toNat / 16) ∧
    b.extractLsb' 0 4 = BitVec.ofNat 4 (b.toNat % 16) := by
  revert b; decide

namespace Machine

theorem leadChar_eq (ext rtr : Bool) : leadChar ext rtr =
    if rtr then (if ext then 0x52#8 else 0x72#8) else (if ext then 0x54#8 else 0x74#8) := by
  cases ext <;> cases rtr <;> rfl

/-- The identifier's digits follow the leading character (R102). -/
theorem getElem?_frameLine_identifier (f : CanFrame) {j : Nat} (hj : j < idNibbles f.ext) :
    (frameLine f)[j + 1]? = (hexDigits (idNibbles f.ext) (f.id.setWidth 32))[j]? := by
  rw [frameLine, List.getElem?_cons_succ, List.getElem?_append_left (by rwa [hexDigits_length])]

/-- After the identifier come the DLC, the data characters and CR (R103 to R105). -/
theorem getElem?_frameLine_rest (f : CanFrame) (j : Nat) :
    (frameLine f)[idNibbles f.ext + 1 + j]? = (hexChar f.dlc :: (dataDigits f ++ [cr]))[j]? := by
  rw [frameLine, show idNibbles f.ext + 1 + j = idNibbles f.ext + j + 1 by omega, List.getElem?_cons_succ,
    List.getElem?_append_right (by rw [hexDigits_length]; omega), hexDigits_length, Nat.add_sub_cancel_left]

theorem getElem?_frameLine_nibble (f : CanFrame) {k : Nat} (hk : k < idNibbles f.ext) :
    (frameLine f)[idNibbles f.ext - k]? = some (hexChar (BitVec.ofNat 4 (f.id.toNat / 16 ^ k % 16))) := by
  have hid : (f.id.setWidth 32).toNat = f.id.toNat := BitVec.toNat_setWidth_of_le (by decide)
  rw [show idNibbles f.ext - k = idNibbles f.ext - 1 - k + 1 by omega, getElem?_frameLine_identifier f (by omega),
    getElem?_hexDigits _ hk, nibbleAt_eq_ofNat, hid]

theorem getElem?_frameLine_data {f : CanFrame} (hr : f.rtr = false) {i : Nat} {b : Byte} (hi : i < f.dlc.toNat)
    (hb : f.data.toList[i]? = some b) :
    (frameLine f)[idNibbles f.ext + 2 + 2 * i]? = some (hexChar (BitVec.ofNat 4 (b.toNat / 16))) ∧
      (frameLine f)[idNibbles f.ext + 3 + 2 * i]? = some (hexChar (BitVec.ofNat 4 (b.toNat % 16))) := by
  have hbyte : (f.data.toList.take f.dlc.toNat)[i]? = some b := by rw [List.getElem?_take_of_lt hi, hb]
  obtain ⟨hhigh, hlow⟩ := getElem?_flatMap_byteDigits hbyte
  obtain ⟨h4, h0⟩ := byte_nibbles_eq_ofNat b
  have hdata : dataDigits f = (f.data.toList.take f.dlc.toNat).flatMap byteDigits := by simp [dataDigits, hr]
  rw [← hdata] at hhigh hlow
  have hline : ∀ {j : Nat} {c : Byte}, (dataDigits f)[j]? = some c →
      (frameLine f)[idNibbles f.ext + 1 + (j + 1)]? = some c := fun {j c} hc => by
    rw [getElem?_frameLine_rest, List.getElem?_cons_succ,
      List.getElem?_append_left (List.getElem?_eq_some_iff.1 hc).1, hc]
  refine ⟨?_, ?_⟩
  · rw [show idNibbles f.ext + 2 + 2 * i = idNibbles f.ext + 1 + (2 * i + 1) by omega, hline hhigh, h4]
  · rw [show idNibbles f.ext + 3 + 2 * i = idNibbles f.ext + 1 + (2 * i + 1 + 1) by omega, hline hlow, h0]

theorem getLast?_frameLine (f : CanFrame) : (frameLine f).getLast? = some cr := by
  rw [frameLine_eq, ← List.cons_append, List.getLast?_concat]

/-- Settles O36: a line is its fields one after another (R95), each digit at its index. -/
theorem emittedBytesAreTheFields : Obligations.EmittedBytesAreTheFields := by
  intro f hf
  rw [decodeFramePort_encode, ← show idNibbles f.ext = if f.ext then 8 else 3 from rfl]
  refine ⟨congrArg some (leadChar_eq f.ext f.rtr), fun k hk => getElem?_frameLine_nibble f hk,
    getElem?_frameLine_rest f 0, fun hr i b hi hb => getElem?_frameLine_data hr hi hb,
    frameLine_length f (dlc_le_of_wf hf), ?_⟩
  rw [← List.getLast?_eq_getElem?]
  exact getLast?_frameLine f

/-! ### The encode transaction -/

/-- What the encode port writes into `FRAME` for a well-formed raw frame: its fields, and zeros where no data byte is
meaningful (R24, R100). -/
def registered (raw : CanFrame) : CanFrame :=
  { raw with data := if raw.rtr then Data8.zero else raw.data.keep raw.dlc.toNat }

theorem builtFrame_port (raw : CanFrame) :
    builtFrame (raw.id.setWidth 32) raw.ext raw.rtr raw.dlc raw.data = registered raw := by
  simp [registered, builtFrame]

/-- The zeros do not count (R25). -/
theorem registered_sameFrame {raw : CanFrame} (h : raw.wf = true) : (registered raw).sameFrame raw := by
  refine ⟨rfl, rfl, rfl, rfl, fun hr => ?_⟩
  have hdata : (registered raw).data = raw.data.keep raw.dlc.toNat := if_neg (Bool.eq_false_iff.1 hr)
  rw [hdata]
  exact Data8.take_keep raw.dlc.toNat raw.data (CanFrame.wf_iff.1 h).1

/-- An emitted form on a well-formed frame leaves that frame and its line (R100, R106, R108). -/
theorem exec_emitted_wf {i : Instr} {raw : CanFrame} (hi : i.rawFrame = some raw) (hwf : raw.wf = true) (s : State) :
    exec i s = .next { s with
      err := .noError
      frame := registered raw
      out := s.out.writeAll 0 (encode i)
      olen := idNibbles raw.ext + 3 + (if raw.rtr then 0 else 2 * raw.dlc.toNat) } := by
  have hdlc := dlc_le_of_wf hwf
  rw [exec_emitted hi, encodeTransaction_wf hwf, frameLine_built raw hdlc, frameLine_length raw hdlc, encode_emitted hi,
    builtFrame_port]
  rfl

/-- Settles O33: `exec_emitted_wf` for each form, whose operands are the fields of a well-formed frame. -/
theorem wellFormedFramesAreEmitted : Obligations.WellFormedFramesAreEmitted := by
  refine ⟨fun s id dlc data hdlc hid => ?_, fun s id dlc data hdlc => ?_, fun s id dlc data hdlc hid => ?_,
    fun s id dlc data hdlc => ?_⟩
  · exact exec_emitted_wf (raw := { id, ext := false, rtr := false, dlc, data }) rfl
      (CanFrame.wf_iff.2 ⟨hdlc, fun _ => hid⟩) s
  · exact exec_emitted_wf (raw := { id, ext := true, rtr := false, dlc, data }) rfl
      (CanFrame.wf_iff.2 ⟨hdlc, by simp⟩) s
  · exact exec_emitted_wf (raw := { id, ext := false, rtr := true, dlc, data }) rfl
      (CanFrame.wf_iff.2 ⟨hdlc, fun _ => hid⟩) s
  · exact exec_emitted_wf (raw := { id, ext := true, rtr := true, dlc, data }) rfl
      (CanFrame.wf_iff.2 ⟨hdlc, by simp⟩) s

/-- Settles O34: a frame out of range is not well formed, so the transaction ends in `ConstructFrame` (R109). -/
theorem illFormedFramesEmitNothing : Obligations.IllFormedFramesEmitNothing := by
  intro s raw hbad
  have hill : raw.wf = false := by
    rw [← Bool.not_eq_true, CanFrame.wf_iff]
    rintro ⟨hdlc, hid⟩
    rcases hbad with hlong | ⟨hext, hbig⟩
    · omega
    · have := hid hext
      omega
  rw [decodeFramePort_exec, encodeTransaction_illFormed hill]
  rfl

/-! ### The line of a frame, given back as a chunk -/

/-- The data bytes a frame's line carries (R104). -/
def lineBytes (f : CanFrame) : List Byte := if f.rtr then [] else f.data.toList.take f.dlc.toNat

theorem dataDigits_eq_flatMap (f : CanFrame) : dataDigits f = (lineBytes f).flatMap byteDigits := by
  rw [dataDigits, lineBytes]
  split <;> rfl

theorem lineBytes_length {f : CanFrame} (h : f.wf = true) :
    (lineBytes f).length = if f.rtr then 0 else f.dlc.toNat := by
  have h8 := (CanFrame.wf_iff.1 h).1
  rw [lineBytes]
  split
  · rfl
  · rw [List.length_take, Data8.toList_length, Nat.min_eq_left h8]

/-- The bytes of its line are all of a frame's data that `ConstructFrame` keeps. -/
theorem builtFrame_lineBytes (f : CanFrame) :
    builtFrame (f.id.setWidth 32) f.ext f.rtr f.dlc (Data8.ofList (lineBytes f)) = registered f := by
  have hkeep : (Data8.ofList (f.data.toList.take f.dlc.toNat)).keep f.dlc.toNat = f.data.keep f.dlc.toNat :=
    Data8.keep_keep f.dlc.toNat f.data
  cases hr : f.rtr with
  | true => simp [registered, builtFrame, hr]
  | false => simp [registered, builtFrame, lineBytes, hr, hkeep]

/-- Each leading character has a row of the Command Table (R170). -/
theorem commandTable_leadChar (ext rtr : Bool) : ∃ mk, commandTable (leadChar ext rtr) = some mk := by
  cases ext <;> cases rtr <;> exact ⟨_, rfl⟩

/-- A frame's line is that of the command of its leading character, its digits the operand. -/
theorem frameLine_eq_commandLine (f : CanFrame) :
    frameLine f = commandLine (leadChar f.ext f.rtr) (frameDigits f) := frameLine_eq f

/-- What the encode port emits fits a chunk of the dispatch port (R59, R108). -/
theorem frameDigits_fit {f : CanFrame} (h : f.wf = true) : (frameDigits f).length + 2 ≤ lineMax := by
  rw [← commandLine_length (leadChar f.ext f.rtr), ← frameLine_eq_commandLine]
  exact Nat.le_trans (frameLine_length_le f (dlc_le_of_wf h)) (by decide)

/-- The command of a well-formed frame's line transmits that frame: every field is read back from its digits, and the
cursor stops at the CR. -/
theorem exec_frameDigits {f : CanFrame} {mk : List Byte → Instr} (hmk : commandTable (leadChar f.ext f.rtr) = some mk)
    (h : f.wf = true) (s : State) :
    exec (mk (frameDigits f)) s = .next (afterDispatch s (frameLine f) [] (some (.transmit (registered f))) .noError
      ((frameDigits f).length + 1) (registered f)) := by
  have hid : identValue (nibblesOf (idNibbles f.ext) (f.id.setWidth 32)) = f.id.setWidth 32 :=
    identValue_nibblesOf (idNibbles_le_eight f.ext) (id_lt_of_wf h)
  have hacc : frameAccepted (identValue (nibblesOf (idNibbles f.ext) (f.id.setWidth 32))) f.ext f.dlc = true := by
    rw [hid, frameAccepted_port, h]
  have hdata : hexBytes (dataDigits f) = some (lineBytes f) := by rw [dataDigits_eq_flatMap, hexBytes_digits]
  have hexec := exec_goodFrameLine hmk (frameKind_leadChar f.ext f.rtr) (hexDigits_length _ _) (hexVals_hexDigits _ _)
    (hexVal_hexChar f.dlc) hdata (lineBytes_length h) hacc [] (by rw [List.append_nil]; exact frameDigits_fit h) s
  have hpos : (hexDigits (idNibbles f.ext) (f.id.setWidth 32)).length + 2 + (dataDigits f).length =
      (frameDigits f).length + 1 := by
    simp only [frameDigits, List.length_append, List.length_cons]
    omega
  rw [List.append_nil, hid, builtFrame_lineBytes, hpos] at hexec
  rw [frameLine_eq_commandLine]
  exact hexec

/-- The step on a well-formed frame's line transmits that frame. -/
theorem step_chunk_frameLine {f : CanFrame} (h : f.wf = true) {s : State} {dev : Word32} {st : List Byte}
    {rest : List Trigger} (hs : s.schedule = .chunk (frameLine f) dev st :: rest) :
    step s = .next (afterDispatch (withChunkInputs s rest dev st) (frameLine f) [] (some (.transmit (registered f)))
      .noError ((frameDigits f).length + 1) (registered f)) := by
  obtain ⟨mk, hmk⟩ := commandTable_leadChar f.ext f.rtr
  have hdecode : decodeLine (frameLine f) = .ok (mk (frameDigits f)) :=
    frameLine_eq_commandLine f ▸ decodeLine_commandLine hmk (frameDigits_fit h)
  rw [step_chunk hs, hdecode]
  exact exec_frameDigits hmk h _

/-- Settles O38: the encode port leaves the frame's line (`encodeTransaction_wf`), and that line transmits the frame
(`step_chunk_frameLine`). -/
theorem encodedFrameComesBackAsTransmit : Obligations.EncodedFrameComesBackAsTransmit := by
  intro s f dev st hf
  have hemit : step { s with schedule := [.frame f] } = .next _ :=
    (step_frame rfl).trans (encodeTransaction_wf hf _)
  rw [frameLine_built f (dlc_le_of_wf hf), builtFrame_port] at hemit
  refine ⟨_, frameLine f, _, registered f, hemit, Memory.slice_writeAll _ _, step_chunk_frameLine hf rfl, rfl,
    registered_sameFrame hf, rfl, rfl, afterDispatch_response .., ?_⟩
  simp [afterDispatch, frameLine_eq]

end Machine
end Sys2Proof
end

section
/-! PROOFS of the decoder's error statements: where a bad or short line stops `Decode`, and that whatever is reported, a
dispatch transaction answers CR alone. -/

namespace Sys2Proof.Machine

/-! ### Lines with a character that is not hexadecimal -/

/-- Text sticks as `MalformedFrame` at a byte that has no value (R122). -/
theorem stuckAt_of_hexVal_none {bs pre rest : List Byte} {b : Byte} {p : Nat} (hbs : bs = pre ++ b :: rest)
    (hp : p = pre.length) (hb : hexVal b = none) : StuckAt bs p .malformedFrame :=
  .inr ⟨b, by simp [hbs, hp], hb, rfl⟩

/-- The line of an operand whose bytes up to the final CR are known (R70). -/
theorem commandLine_of_append_cr {args text : List Byte} (h : args ++ [cr] = text) (c : Byte) :
    commandLine c args = c :: text := by
  rw [commandLine, h]

/-- Settles O23: `Decode` sticks in the identifier or at the DLC character (`decodeFrame_stuck_early`). -/
theorem badIdentifierOrDlcCharacterIsMalformed : Obligations.BadIdentifierOrDlcCharacterIsMalformed := by
  intro s c mk ext rtr args good rest vs b hc hk hfit htext hgood hb hlen
  have hline := commandLine_of_append_cr htext c
  rw [exec_frameCommand hc hk]
  exact runFrame_error (commandLine_fits hfit c) (by simp)
    (decodeFrame_stuck_early (begun_holds _ s) hline hk hgood hlen
      (stuckAt_of_hexVal_none (pre := c :: good) hline rfl hb))

/-- Settles O25: identifier and DLC parse, and `Decode` sticks in the data field (`decodeFrame_stuck_data`). -/
theorem badDataCharacterIsMalformed : Obligations.BadDataCharacterIsMalformed := by
  intro s c mk ext args ids good rest vs ws l b dlc hc hk hfit htext hn hids hl hdlc hgood hb hlt
  have hline := commandLine_of_append_cr htext c
  have hstuck : StuckAt (commandLine c args) (ids.length + 2 + good.length) .malformedFrame :=
    stuckAt_of_hexVal_none (pre := c :: (ids ++ l :: good)) (rest := rest) (by simp [hline])
      (by simp only [List.length_cons, List.length_append]; omega) hb
  rw [exec_frameCommand hc hk]
  exact runFrame_error (commandLine_fits hfit c) (by simp)
    (decodeFrame_stuck_data (begun_holds _ s) hline hk hn hids hl hdlc hgood hlt hstuck)

/-! ### `Decode` on its own -/

/-- `Decode` finds no leading character in an empty list (R121). -/
theorem decodeFrame_empty {s : State} (h : Holds s []) :
    decodeFrame s = .raised (raise .truncatedFrame (s.withPos 0)) := by
  rw [decodeFrame, (h.withPos 0).lineRead_none (Nat.zero_le _), Res.bind_raised]

/-- Settles O28: by where the list ends. Past its end every field sticks as `TruncatedFrame` (`StuckAt`). -/
theorem decodeAloneReportsTruncation : Obligations.DecodeAloneReportsTruncation := by
  have hraise : ∀ {s : State} {line : List Byte} {k : ErrKind} {p : Nat}, s.err = .noError →
      raise k ((s.holding line).withPos p) = ((s.holding line).withPos p).withErr k :=
    fun herr => raise_of_noError herr
  refine ⟨fun s herr => ?_, fun s c rest herr hk => ?_, fun s c ext rtr ids vs herr hk hids hlen => ?_,
    fun s c l ext ids data vs ws dlc herr hk hids hn hl hdlc hdata hlt => ?_⟩
  · rw [decodeFrame_empty (holds_holding s []), hraise herr]
  · rw [decodeFrame_lead (holds_holding s (c :: rest)), hk, ← hraise herr]
  · rw [← hraise herr]
    exact decodeFrame_stuck_early (rest := []) (holds_holding s _) (by simp) hk hids hlen
      (.inl ⟨Nat.le_refl _, rfl⟩)
  · have hend : (c :: (ids ++ l :: data)).length ≤ ids.length + 2 + data.length := by
      simp only [List.length_cons, List.length_append]; omega
    rw [← hraise herr]
    exact decodeFrame_stuck_data (rest := []) (holds_holding s _) (by simp) hk hn hids hl hdlc hdata hlt
      (.inl ⟨hend, rfl⟩)

/-! ### Transmit or swallow, and silence -/

/-- Settles O22: a frame command's sound result (`exec_command`) either reports nothing, and then it wrote the frame it
transmits, or reports `MalformedFrame`. -/
theorem frameCommandsSendOrSwallow : Obligations.FrameCommandsSendOrSwallow := by
  intro s c mk ext rtr args hc hk hfit
  obtain ⟨r, hr, hrun⟩ := exec_command hc hfit s
  obtain ⟨hbytes, hsends⟩ := hr.sends _ hk
  have hexec : exec (mk args) s = .next (r.after s (commandLine c args)) :=
    (hrun s ⟨rfl, rfl, rfl⟩).1 (by rw [hbytes]; exact respCap_pos _)
  rw [CommandResult.after, hbytes] at hexec
  rcases hr.err with herr | ⟨herr, -, hfx, hframe⟩
  · left
    obtain ⟨f, hf⟩ := hsends herr
    obtain ⟨hwf, -, hfx, hkind⟩ := hr.frame f hf
    obtain ⟨rfl, rfl⟩ : ext = f.ext ∧ rtr = f.rtr := Prod.mk.inj (Option.some.inj (hk.symm.trans hkind))
    rw [hfx, herr, hf] at hexec
    exact ⟨_, f, hwf, rfl, rfl, hexec⟩
  · right
    rw [hfx, herr, hframe] at hexec
    exact ⟨_, hexec⟩

/-- What a completed dispatch transaction carried out, whether its chunk selected a handler or not: a result that has no
bytes, effect or frame if it reports an error (R222). -/
theorem step_chunk_inv {s s' : State} {line : List Byte} {dev : Word32} {st : List Byte} {rest : List Trigger}
    (hs : s.schedule = .chunk line dev st :: rest) (hstep : step s = .next s') :
    ∃ r : CommandResult, s' = r.after (withChunkInputs s rest dev st) line ∧
      (r.err ≠ .noError → r.bytes = [] ∧ r.fx = none ∧ r.frame = none) := by
  rcases Nat.lt_or_ge lineMax line.length with hlong | hline
  · rw [step_tooLong hs hlong] at hstep
    cases hstep
  rcases step_chunk_shows (s := s) dev st hline with ⟨err, -, -, hrun⟩ | ⟨c, r, -, hr, hrun⟩
  · rw [hrun s rest hs] at hstep
    cases hstep
    exact ⟨⟨[], none, err, none, none⟩, rfl, fun _ => ⟨rfl, rfl, rfl⟩⟩
  · obtain ⟨hfits, hfull⟩ := hrun s rest hs rfl
    rcases Nat.lt_or_ge r.bytes.length s.cfg.respCap with hb | hb
    · rw [hfits hb] at hstep
      cases hstep
      exact ⟨r, rfl, fun herr => (hr.err.resolve_left herr).2⟩
    · rw [hfull hb] at hstep
      cases hstep

/-- Settles O12: a result that reports an error leaves the CR alone (`step_chunk_inv`). -/
theorem errorsAreSilent : Obligations.ErrorsAreSilent := by
  intro s s' line dev st rest hs hstep herr
  obtain ⟨r, rfl, hsilent⟩ := step_chunk_inv hs hstep
  obtain ⟨hbytes, hfx, hframe⟩ := hsilent herr
  refine ⟨?_, hfx, ?_⟩
  · rw [CommandResult.after, afterDispatch_response, hbytes]
    rfl
  · rw [CommandResult.after, hframe]
    rfl

end Sys2Proof.Machine
end

section
/-! PROOFS of the dispatcher statements: how a chunk without a handler is answered, what bytes a response can hold, and
that what the environment owes the block is enough for every transaction and every run to complete. -/

namespace Sys2Proof.Machine

/-! ### Chunks that select no handler -/

/-- Settles O8: the decoder calls the chunk incomplete (`decodeLine_incomplete`), and the step rejects it as that. -/
theorem incompleteLineIsAnsweredWithCr : Obligations.IncompleteLineIsAnsweredWithCr := by
  intro s line dev st rest hs hl hlast
  rw [step_chunk hs, decodeLine_incomplete hl hlast]
  exact rejectIncomplete_next line _

/-- Settles O9: no row lists byte 0 (`lookupRow_none`), so the line is unknown, and the step rejects it as that. -/
theorem unknownCommandIsAnsweredWithCr : Obligations.UnknownCommandIsAnsweredWithCr := by
  intro s c tail dev st rest hs hl hlast hc
  have hnone : commandTable c = none := lookupRow_none.2 hc
  rw [step_chunk hs, decodeLine_unknown hl hlast hnone]
  exact rejectUnknown_next (c :: tail) _

/-! ### The bytes of a response -/

theorem hexChar_ne_cr_bel (n : Nibble) : hexChar n ≠ 0x0D#8 ∧ hexChar n ≠ 0x07#8 :=
  ⟨hexChar_ne_cr n, by revert n; decide⟩

section Sound
variable {r : CommandResult} {c : Byte} {s : State}

/-- Only `V`, `F` and `N` answer bytes (R152). -/
theorem CommandResult.Sound.bytes_eq_nil (hr : r.Sound c s) (hV : c ≠ 0x56#8) (hF : c ≠ 0x46#8) (hN : c ≠ 0x4E#8) :
    r.bytes = [] := by
  rcases hr.bytes with hb | ⟨hc, -⟩ | ⟨hc, -⟩ | ⟨hc, -⟩
  · exact hb
  · exact absurd hc hV
  · exact absurd hc hF
  · exact absurd hc hN

/-- Every byte a command answers is one of the build's version, of the status reply, or a hexadecimal character. -/
theorem CommandResult.Sound.mem_bytes (hr : r.Sound c s) {b : Byte} (hb : b ∈ r.bytes) :
    b ∈ s.cfg.versionBytes ++ s.statusBytes ∨ ∃ n, hexChar n = b := by
  rcases hr.bytes with h | ⟨-, h⟩ | ⟨-, h⟩ | ⟨-, h⟩ <;> rw [h] at hb
  · exact absurd hb List.not_mem_nil
  · exact .inl (List.mem_append_left _ hb)
  · exact .inl (List.mem_append_right _ hb)
  · exact .inr (hexChar_of_mem_hexDigits hb)

/-- A command never reports its line as incomplete (R142: the terminator was checked before it ran). -/
theorem CommandResult.Sound.err_ne_incompleteLine (hr : r.Sound c s) : r.err ≠ .incompleteLine := by
  rcases hr.err with he | ⟨he, -, -, -⟩ <;> rw [he] <;> nofun

end Sound

/-- How a dispatch transaction that completed came about: its chunk selected no handler and was answered without bytes,
or the command of byte 0 carried out a sound result. -/
theorem step_chunk_cases {s s' : State} {line : List Byte} {dev : Word32} {st : List Byte} {rest : List Trigger}
    (hs : s.schedule = .chunk line dev st :: rest) (hstep : step s = .next s') :
    (∃ err, s' = afterDispatch (withChunkInputs s rest dev st) line [] none err s.pos s.frame) ∨
    (∃ c r, line.head? = some c ∧ CommandResult.Sound r c (withChunkInputs s [] dev st) ∧
      s' = r.after (withChunkInputs s rest dev st) line) := by
  rcases Nat.lt_or_ge lineMax line.length with hlong | hline
  · rw [step_tooLong hs hlong] at hstep
    cases hstep
  rcases step_chunk_shows (s := s) dev st hline with ⟨err, -, -, hrun⟩ | ⟨c, r, hc, hr, hrun⟩
  · rw [hrun s rest hs] at hstep
    cases hstep
    exact .inl ⟨err, rfl⟩
  · obtain ⟨hfits, hfull⟩ := hrun s rest hs rfl
    rcases Nat.lt_or_ge r.bytes.length s.cfg.respCap with hb | hb
    · rw [hfits hb] at hstep
      cases hstep
      exact .inr ⟨c, r, hc, hr, rfl⟩
    · rw [hfull hb] at hstep
      cases hstep

/-- Settles O11: by how the transaction came about (`step_chunk_cases`); a command's bytes are those of its sound
result. -/
theorem everyResponseEndsWithItsOnlyCr : Obligations.EveryResponseEndsWithItsOnlyCr := by
  intro s s' line dev st rest hs hstep
  rcases step_chunk_cases hs hstep with ⟨err, rfl⟩ | ⟨c, r, hc, hr, rfl⟩
  · exact ⟨[], afterDispatch_response .., rfl, fun _ => rfl, fun _ _ hb => absurd hb List.not_mem_nil⟩
  · refine ⟨r.bytes, afterDispatch_response .., rfl, ?_, fun hclean b hb => ?_⟩
    · rintro (⟨hV, hF, hN⟩ | herr)
      · simp only [hc, ne_eq, Option.some.injEq] at hV hF hN
        exact hr.bytes_eq_nil hV hF hN
      · exact absurd herr hr.err_ne_incompleteLine
    · rcases hr.mem_bytes hb with hparam | ⟨n, rfl⟩
      · exact hclean b hparam
      · exact hexChar_ne_cr_bel n

/-! ### Completion -/

/-- An encode transaction completes on every raw frame (R100, R109). -/
theorem encodeTransaction_completes (raw : CanFrame) (s : State) : ∃ s', encodeTransaction raw s = .next s' := by
  cases hw : raw.wf with
  | true => exact ⟨_, encodeTransaction_wf hw s⟩
  | false => exact ⟨_, encodeTransaction_illFormed hw s⟩

/-- A command whose line fits a chunk completes when the status bytes leave room for the terminator (R182). -/
theorem exec_command_completes {c : Byte} {mk : List Byte → Instr} (hc : commandTable c = some mk) {args : List Byte}
    (hfit : args.length + 2 ≤ lineMax) {s : State} (hst : s.statusBytes.length < s.cfg.respCap) :
    ∃ s', exec (mk args) s = .next s' := by
  obtain ⟨r, hr, hrun⟩ := exec_command hc hfit s
  exact ⟨_, (hrun s ⟨rfl, rfl, rfl⟩).1 (hr.bytes_lt_respCap hst)⟩

/-- Settles O27: by port. An emitted form is an encode transaction, a command one of the rows of the table. -/
theorem everyWellFormedInstructionCompletes : Obligations.EveryWellFormedInstructionCompletes := by
  intro i s hwf hst
  cases hraw : i.rawFrame with
  | some raw =>
    rw [exec_emitted hraw]
    exact encodeTransaction_completes raw s
  | none =>
    obtain ⟨c, args, mk, hc, rfl⟩ := commandTable_of_rawFrame hraw
    obtain ⟨-, -, hargs⟩ := encode_of_commandTable hc args
    exact exec_command_completes hc (of_decide_eq_true (hargs.symm.trans hwf)) hst

/-- Settles O45: the transaction completes (`step_next_of_legal`), and any that does takes its trigger off the schedule
and keeps the build (`step_next_cons`). -/
theorem legalTriggersAlwaysComplete : Obligations.LegalTriggersAlwaysComplete := by
  intro s t rest hs ht
  obtain ⟨s', hstep⟩ := step_next_of_legal hs ht
  exact ⟨s', hstep, step_next_cons hs hstep⟩

/-- Settles O46: by induction on the triggers; the build stays, so those left stay legal. -/
theorem legalRunsNeverStop : Obligations.LegalRunsNeverStop := by
  intro ts
  induction ts with
  | nil => exact fun _ _ => ⟨[], rfl, rfl⟩
  | cons t ts ih =>
    intro s hts
    obtain ⟨ht, hrest⟩ := List.forall_mem_cons.1 hts
    obtain ⟨u, hstep⟩ := step_next_of_legal (s := s.withSchedule (t :: ts)) rfl ht
    have hcfg : u.cfg = s.cfg := (step_next_cons rfl hstep).2
    obtain ⟨os, hrun, hlen⟩ := ih u (hcfg ▸ hrest)
    exact ⟨observe t u :: os, by rw [observeRun_cons_of_next hstep, hrun, Option.map_some], congrArg (· + 1) hlen⟩

end Sys2Proof.Machine
end

section
/-! PROOFS of the statement on the configuration commands (spec/46_cmd_config.md). -/

namespace Sys2Proof.Machine

/-- A configuration command hands the collaborator its letter and operand bytes as they stand on its line (R198). -/
theorem runCommand_handleConfig {args : List Byte} (hfit : args.length + 2 ≤ lineMax) (c : Byte) (s : State) :
    runCommand (commandLine c args) handleConfig s =
      .next (afterDispatch s (commandLine c args) [] (some (.config c args)) .noError s.pos s.frame) :=
  runCommand_next (commandLine_fits hfit c) (respCap_pos _) (handleConfig_begun c args s)

/-- Settles O19: the eight commands are `handleConfig` on the lines of their letters, and no row lists the other five. -/
theorem configCommandsHandOverTheirBytes : Obligations.ConfigCommandsHandOverTheirBytes :=
  ⟨fun s _ hfit => ⟨runCommand_handleConfig hfit 0x73#8 s, runCommand_handleConfig hfit 0x58#8 s,
      runCommand_handleConfig hfit 0x57#8 s, runCommand_handleConfig hfit 0x4D#8 s,
      runCommand_handleConfig hfit 0x6D#8 s, runCommand_handleConfig hfit 0x55#8 s,
      runCommand_handleConfig hfit 0x5A#8 s, runCommand_handleConfig hfit 0x51#8 s⟩,
    rfl, rfl, rfl, rfl, rfl⟩

end Sys2Proof.Machine
end

section
/-! PROOFS of the statement on the identification command `N` (spec/47_cmd_identification.md). -/

namespace Sys2Proof.Machine

/-- The eight digits of `DEVICE_ID` leave room for the terminator (R7, R201). -/
theorem deviceDigits_lt_respCap (c : Config) (v : Word32) : (hexDigits 8 v).length < c.respCap := by
  rw [hexDigits_length]
  exact respCap_ge_nine c

/-- `N` answers the hexadecimal digits of `DEVICE_ID`, whatever operand bytes stand on its line (R91, R201). -/
theorem exec_deviceIdent {args : List Byte} (hfit : args.length + 2 ≤ lineMax) (s : State) :
    exec (.deviceIdent args) s =
      .next (afterDispatch s (commandLine 0x4E#8 args) (hexDigits 8 s.deviceId) (some .devId) .noError s.pos s.frame) :=
  runCommand_next (commandLine_fits hfit _) (deviceDigits_lt_respCap s.cfg s.deviceId) (handleDeviceIdent_begun _ s)

/-- Settles O18: `hexDigits 8` lists the nibbles from bits 31:28 down to 3:0, and no row lists `n`. -/
theorem deviceIdentAnswersEightDigits : Obligations.DeviceIdentAnswersEightDigits :=
  ⟨fun s _ hfit => exec_deviceIdent hfit s, rfl⟩

end Sys2Proof.Machine
end
